-- ==== Sys2Proof/Word.lean ====
section
/-! DEFINITION. The widths the spec gives its values (00_scope.md R8, R9, R12, R13, R15).
Every value of the block is an unsigned number of a fixed width, so each is a bit vector of that width. -/

namespace Sys2Proof

/-- A `u8`: one byte of a bank, one lane of a register pair (R8, R9). -/
abbrev Byte := BitVec 8

/-- A `u16`: the contents of a register, and the data of a response (R8, R60). -/
abbrev Word := BitVec 16

/-- A memory address as the command port presents it: 16 bits (R12). -/
abbrev Addr := BitVec 16

/-- A bank number 0..7, and the bank-select index (R9, R13). -/
abbrev BankNo := BitVec 3

/-- The place of a byte in its bank, 0..4095 (R9, R29). -/
abbrev Offset := BitVec 12

/-- One word on the command port (R59, R61). -/
abbrev Command := BitVec 32

/-- The s field of a command: a register selector or a flag selector (R61). -/
abbrev Selector := BitVec 4

end Sys2Proof
end

