-- ==== Sys2Proof/Syntax.lean ====
section
/-! DEFINITION. The commands of the block as syntax: one constructor per row of spec/opcode_table.json
(30_encoding.md R63), with the operands R70 reads from the word. -/

namespace Sys2Proof

/-- The six registers (10_state.md R20, 30_encoding.md R64). -/
inductive Reg where
  | af | bc | de | hl | sp | pc
deriving DecidableEq, Repr

/-- The four named flags (10_state.md R26). Z is the zero flag, N subtract, H half-carry, C carry. -/
inductive Flag where
  | z | n | h | c
deriving DecidableEq, Repr

/-- The twelve operations of R63, as names. -/
inductive Op where
  | rd16 | wr16 | rdh | wrh | rdl | wrl | getf | setf | mrd | mwr | crd | cwr
deriving DecidableEq, Repr

/-- A command with its operands. A lane command (`rdh`, `wrh`, `rdl`, `wrl`) names any register here;
`Instr.WellFormed` holds it to the four pairs (R66). -/
inductive Instr where
  | rd16 (p : Reg)
  | wr16 (p : Reg) (d16 : Word)
  | rdh (p : Reg)
  | wrh (p : Reg) (d8 : Byte)
  | rdl (p : Reg)
  | wrl (p : Reg) (d8 : Byte)
  | getf (f : Flag)
  | setf (f : Flag) (v : Bool)
  | mrd (a16 : Addr)
  | mwr (a16 : Addr) (d8 : Byte)
  | crd
  | cwr (d8 : Byte)
deriving DecidableEq, Repr

/-- The operation a command performs. -/
def Instr.op : Instr → Op
  | .rd16 _ => .rd16
  | .wr16 _ _ => .wr16
  | .rdh _ => .rdh
  | .wrh _ _ => .wrh
  | .rdl _ => .rdl
  | .wrl _ _ => .wrl
  | .getf _ => .getf
  | .setf _ _ => .setf
  | .mrd _ => .mrd
  | .mwr _ _ => .mwr
  | .crd => .crd
  | .cwr _ => .cwr

end Sys2Proof
end

