-- ==== Sys2Proof/WellFormed.lean ====
section
/-! DEFINITION. Which commands are legal beyond what their types say: a lane command names one of the four register
pairs (10_state.md R23, 30_encoding.md R64 and R66). Every other operand is legal at every value of its type. -/

namespace Sys2Proof

/-- R20, R64: AF, BC, DE and HL are the dual-view pairs; SP and PC have no lanes. -/
def Reg.isPair : Reg → Bool
  | .af => true
  | .bc => true
  | .de => true
  | .hl => true
  | .sp => false
  | .pc => false

/-- R66: the legality of a command's selector. -/
def Instr.isWellFormed : Instr → Bool
  | .rd16 _ => true
  | .wr16 _ _ => true
  | .rdh p => p.isPair
  | .wrh p _ => p.isPair
  | .rdl p => p.isPair
  | .wrl p _ => p.isPair
  | .getf _ => true
  | .setf _ _ => true
  | .mrd _ => true
  | .mwr _ _ => true
  | .crd => true
  | .cwr _ => true

/-- `Instr.isWellFormed` as a proposition. -/
abbrev Instr.WellFormed (i : Instr) : Prop := i.isWellFormed = true

end Sys2Proof
end

