-- ==== Sys2Proof/Decode.lean ====
section
/-! DEFINITION. Decoding and encoding of command words (30_encoding.md R61 to R72; the rows are spec/opcode_table.json).
`decode` is total on every 32-bit word and reads no state (R69); a word that is no command is refused under the name of
the rule it breaks. -/

namespace Sys2Proof

/-! ### Fields of a command word (R61, R70) -/

/-- R61: `op = cmd[31:28]`. -/
def opField (cmd : Command) : BitVec 4 := cmd.extractLsb' 28 4

/-- R61: `s = cmd[27:24]`. -/
def sField (cmd : Command) : Selector := cmd.extractLsb' 24 4

/-- R61: `a16 = cmd[23:8]`. -/
def a16Field (cmd : Command) : Addr := cmd.extractLsb' 8 16

/-- R61: `d16 = cmd[15:0]`. -/
def d16Field (cmd : Command) : Word := cmd.extractLsb' 0 16

/-- R61: `d8 = cmd[7:0]`. -/
def d8Field (cmd : Command) : Byte := cmd.extractLsb' 0 8

/-- R61, R70: `v = cmd[0]`, 1 meaning true. -/
def vField (cmd : Command) : Bool := cmd.getLsbD 0

/-! ### Selectors (R64, R65) -/

/-- R64: the selector value of a register. -/
def Reg.selector : Reg → Selector
  | .af => 0
  | .bc => 1
  | .de => 2
  | .hl => 3
  | .sp => 4
  | .pc => 5

/-- R64: the register a selector names in the whole-view commands; 6 to 15 are reserved. -/
def Reg.ofSelector (s : Selector) : Option Reg :=
  if s = 0 then some .af
  else if s = 1 then some .bc
  else if s = 2 then some .de
  else if s = 3 then some .hl
  else if s = 4 then some .sp
  else if s = 5 then some .pc
  else none

/-- R64, R66: the register a selector names in the lane commands; SP, PC and the reserved values are refused. -/
def Reg.pairOfSelector (s : Selector) : Option Reg :=
  (Reg.ofSelector s).filter Reg.isPair

/-- R26, R65: the bit of the flag sub-register that holds a flag. -/
def Flag.bit : Flag → Nat
  | .z => 7
  | .n => 6
  | .h => 5
  | .c => 4

/-- R65: a flag's selector is its bit position. -/
def Flag.selector (f : Flag) : Selector := BitVec.ofNat 4 f.bit

/-- R65: the flag a selector names; 0 to 3 and 8 to 15 are reserved. -/
def Flag.ofSelector (s : Selector) : Option Flag :=
  if s = 7 then some .z
  else if s = 6 then some .n
  else if s = 5 then some .h
  else if s = 4 then some .c
  else none

/-! ### The opcode table (R62, R63) -/

/-- A row of the opcode table: a word is of this row when its bits under `mask` are `pattern`. -/
structure Row where
  op : Op
  mask : Command
  pattern : Command
deriving DecidableEq, Repr

/-- R69: `(cmd & row.mask) == row.match`. -/
def Row.matchesWord (r : Row) (cmd : Command) : Bool := cmd &&& r.mask == r.pattern

/-- spec/opcode_table.json, register rows (40_register_ops.md). -/
def registerRows : List Row :=
  [⟨.rd16, 0xF0FFFFFF, 0x00000000⟩,
   ⟨.wr16, 0xF0FF0000, 0x10000000⟩,
   ⟨.rdh, 0xF0FFFFFF, 0x20000000⟩,
   ⟨.wrh, 0xF0FFFF00, 0x30000000⟩,
   ⟨.rdl, 0xF0FFFFFF, 0x40000000⟩,
   ⟨.wrl, 0xF0FFFF00, 0x50000000⟩]

/-- spec/opcode_table.json, flag rows (41_flag_ops.md). -/
def flagRows : List Row :=
  [⟨.getf, 0xF0FFFFFF, 0x60000000⟩,
   ⟨.setf, 0xF0FFFFFE, 0x70000000⟩]

/-- spec/opcode_table.json, memory rows (42_memory_ops.md). -/
def memoryRows : List Row :=
  [⟨.mrd, 0xFF0000FF, 0x80000000⟩,
   ⟨.mwr, 0xFF000000, 0x90000000⟩]

/-- spec/opcode_table.json, control rows (43_control_ops.md). -/
def controlRows : List Row :=
  [⟨.crd, 0xFFFFFFFF, 0xA0000000⟩,
   ⟨.cwr, 0xFFFFFF00, 0xB0000000⟩]

/-- The opcode table: twelve rows. -/
def opcodeTable : List Row := registerRows ++ flagRows ++ memoryRows ++ controlRows

/-- R69: the operation of the row that matches a word. -/
def rowOf (cmd : Command) : Option Op :=
  (opcodeTable.find? (·.matchesWord cmd)).map Row.op

/-! ### Decoding (R66 to R72) -/

/-- Why a word is no command. The block reports one verdict for all three, ILLEGAL_COMMAND (R69).
The names and their order are the model's (DEDUCED, log entry 7). -/
inductive Illegal where
  /-- R68: the op field is 0xC to 0xF. -/
  | reservedOperation
  /-- R67: a bit that the word's format marks `0` is 1. -/
  | mustBeZero
  /-- R66: the s field names no register, no pair or no flag that the operation takes. -/
  | selector
deriving DecidableEq, Repr

/-- R66, R70: the operands of a word of a row, none when its selector is illegal. -/
def operands (op : Op) (cmd : Command) : Option Instr :=
  match op with
  | .rd16 => (Reg.ofSelector (sField cmd)).map .rd16
  | .wr16 => (Reg.ofSelector (sField cmd)).map (.wr16 · (d16Field cmd))
  | .rdh => (Reg.pairOfSelector (sField cmd)).map .rdh
  | .wrh => (Reg.pairOfSelector (sField cmd)).map (.wrh · (d8Field cmd))
  | .rdl => (Reg.pairOfSelector (sField cmd)).map .rdl
  | .wrl => (Reg.pairOfSelector (sField cmd)).map (.wrl · (d8Field cmd))
  | .getf => (Flag.ofSelector (sField cmd)).map .getf
  | .setf => (Flag.ofSelector (sField cmd)).map (.setf · (vField cmd))
  | .mrd => some (.mrd (a16Field cmd))
  | .mwr => some (.mwr (a16Field cmd) (d8Field cmd))
  | .crd => some .crd
  | .cwr => some (.cwr (d8Field cmd))

/-- R69: decoding, total on every word. The row is looked up first and the selector judged after it. -/
def decode (cmd : Command) : Except Illegal Instr :=
  match rowOf cmd with
  | none => if 0xC#4 ≤ opField cmd then .error .reservedOperation else .error .mustBeZero
  | some op =>
    match operands op cmd with
    | none => .error .selector
    | some i => .ok i

/-! ### Encoding (R62, R63) -/

/-- Formats RR and FG: `oooo ssss 0000 0000 0000 0000 0000 0000`. -/
def formatRR (op : BitVec 4) (s : Selector) : Command := op ++ s ++ 0#24

/-- Format RW: `oooo ssss 0000 0000 dddd dddd dddd dddd`. -/
def formatRW (op : BitVec 4) (s : Selector) (d16 : Word) : Command := op ++ s ++ 0#8 ++ d16

/-- Format RB: `oooo ssss 0000 0000 0000 0000 dddd dddd`. -/
def formatRB (op : BitVec 4) (s : Selector) (d8 : Byte) : Command := op ++ s ++ 0#16 ++ d8

/-- Format FS: `oooo ssss 0000 0000 0000 0000 0000 000v`. -/
def formatFS (op : BitVec 4) (s : Selector) (v : Bool) : Command := op ++ s ++ 0#23 ++ BitVec.ofBool v

/-- Format MR: `oooo 0000 aaaa aaaa aaaa aaaa 0000 0000`. -/
def formatMR (op : BitVec 4) (a16 : Addr) : Command := op ++ 0#4 ++ a16 ++ 0#8

/-- Format MW: `oooo 0000 aaaa aaaa aaaa aaaa dddd dddd`. -/
def formatMW (op : BitVec 4) (a16 : Addr) (d8 : Byte) : Command := op ++ 0#4 ++ a16 ++ d8

/-- Format CR: `oooo 0000 0000 0000 0000 0000 0000 0000`. -/
def formatCR (op : BitVec 4) : Command := op ++ 0#28

/-- Format CW: `oooo 0000 0000 0000 0000 0000 dddd dddd`. -/
def formatCW (op : BitVec 4) (d8 : Byte) : Command := op ++ 0#20 ++ d8

/-- The word of a command, by its format (R62) and its op value (R63). -/
def encode : Instr → Command
  | .rd16 p => formatRR 0x0 p.selector
  | .wr16 p d16 => formatRW 0x1 p.selector d16
  | .rdh p => formatRR 0x2 p.selector
  | .wrh p d8 => formatRB 0x3 p.selector d8
  | .rdl p => formatRR 0x4 p.selector
  | .wrl p d8 => formatRB 0x5 p.selector d8
  | .getf f => formatRR 0x6 f.selector
  | .setf f v => formatFS 0x7 f.selector v
  | .mrd a16 => formatMR 0x8 a16
  | .mwr a16 d8 => formatMW 0x9 a16 d8
  | .crd => formatCR 0xA
  | .cwr d8 => formatCW 0xB d8

/-! ### Words as the opcode table numbers them -/

/-- The command word that the table's number `w` of `nbits` bits stands for. Every command is one 32-bit word (R72)
whose bit 0 is the table's bit 0 (R15, R61), so no byte order enters (DEDUCED, log entry 10). -/
def tableWord (nbits w : Nat) : Command := BitVec.ofNat 32 (w % 2 ^ nbits)

/-- The command that `decode` reads from a table word; none where it refuses, and for a number that is longer than
the one 32-bit word of a command (R72). -/
def decodeTableWord (nbits w : Nat) : Option Instr :=
  if w % 2 ^ nbits < 2 ^ 32 then (decode (tableWord nbits w)).toOption else none

end Sys2Proof
end

