-- ==== Sys2Proof/Config.lean ====
section
/-! DEFINITION. The parameters of this hardware (00_scope.md R8 to R14) and the reset contents of a bank byte.
The spec leaves no behaviour of the block open (93_implementation_defined.md), so there is no free value here. -/

namespace Sys2Proof.Config

/-- R9: eight banks, numbered 0 to 7. -/
@[simp] abbrev numBanks : Nat := 8

/-- R9: a bank is 4096 bytes. -/
@[simp] abbrev bankSize : Nat := 4096

/-- R29: 32768 bytes in all. -/
@[simp] abbrev storageSize : Nat := numBanks * bankSize

/-- R10: each half of the window is 4096 addresses. -/
@[simp] abbrev half : Nat := 4096

/-- R10: the window is 8192 addresses. -/
@[simp] abbrev windowSize : Nat := 8192

/-- R11: the lowest address of the window on this hardware (DESIGN CHOICE, log entry 1). -/
@[simp] abbrev windowStart : Nat := 0xC000

/-- R11: the bases a model may take for the window. -/
abbrev LegalWindowStart (ws : Nat) : Prop :=
  0xB011 ≤ ws ∧ ws ≤ 0xC010 ∧ ws + windowSize ≤ 0x10000

/-- R37: what a bank byte that nothing has written holds, "all banks zero-filled". -/
@[simp] abbrev fillByte : Byte := 0x00

end Sys2Proof.Config
end

