-- ==== Sys2Proof/Machine/State.lean ====
section
/-! DEFINITION. Everything the spec gives the machine, as plain data, and its value at reset (10_state.md R20 to R37).
Beside the architectural state of R20, R29 and R30, `State` holds the fault record (60_exceptions.md R104), the response
port (30_encoding.md R59, R60) and the commands the issuer has yet to present (70_reset_and_hazards.md R120, R127). -/

namespace Sys2Proof.Machine

/-- The bank bytes that differ from what an unlisted byte reads as (`Config.fillByte`, R37), keyed by their place in the
32768 bytes of R29: byte `o` of bank `b` has the key `b * 4096 + o` (DESIGN CHOICE, log entry 4). -/
abbrev Memory := List Host.Cell

/-- The canonical form of a memory: keys strictly rise, each lies in the storage, and no entry holds the fill byte. -/
abbrev Memory.wf (m : Memory) : Prop :=
  m.Pairwise (fun x y => x.1 < y.1) ∧ ∀ c ∈ m, c.1 < Config.storageSize ∧ c.2 ≠ Config.fillByte

/-- One byte of the banked memory: `bank[b][o]` (R16, R29). -/
structure Place where
  bank : BankNo
  offset : Offset
deriving DecidableEq, Repr

/-- R60: what a response says of its command. The fourth code is never driven, so it is no value here. -/
inductive Status where
  /-- The command completed. -/
  | ok
  /-- MRD or MWR named an address outside the window (R100). -/
  | outOfRange
  /-- The word encodes no command (R101). -/
  | illegalCommand
deriving DecidableEq, Repr

/-- R59, R60: the response to one command, `status[1:0]` and `rdata[15:0]`. -/
structure Response where
  status : Status
  rdata : Word
deriving DecidableEq, Repr

/-- R100, R101, R104: the fault record `(code, cmd, a16 if code = 1)`. -/
inductive FaultRecord where
  /-- Code 1. Raised by MRD and MWR: the command word and the address outside the window. -/
  | outOfRange (cmd : Command) (a16 : Addr)
  /-- Code 2. Raised by the decoder: the command word. -/
  | illegalCommand (cmd : Command)
deriving DecidableEq, Repr

/-- Why a step of the machine stops. -/
inductive Fault where
  /-- Raised by `step` in a block that holds a fault record. Safe: R104 says the faulted block accepts no further
  command, "a model gives the faulted state no step". -/
  | blockStopped (r : FaultRecord)
deriving DecidableEq, Repr

/-- Why an instruction is refused. -/
inductive Refusal where
  /-- Raised by an arm of `exec` whose instruction has no meaning yet; no arm is left so. Safe: it stops. -/
  | notModelled (mnemonic : String)
deriving DecidableEq, Repr

/-- The machine's state. -/
structure State where
  /-- R20: `x[AF]`. Its low lane is the flag sub-register (R26). -/
  af : Word
  /-- R20: `x[BC]`. -/
  bc : Word
  /-- R20: `x[DE]`. -/
  de : Word
  /-- R20: `x[HL]`. -/
  hl : Word
  /-- R20, R23: `x[SP]`. -/
  sp : Word
  /-- R20, R25: `x[PC]`, plain storage: the block never fetches from it and never advances it. -/
  pc : Word
  /-- R29: the eight banks. -/
  mem : Memory
  /-- R30: the bank-select index. -/
  sel : BankNo
  /-- R59, R60: the response to the command accepted last; none before the first command (DESIGN CHOICE, log entry 2). -/
  resp : Option Response
  /-- R104: the fault record, empty until a command faults. -/
  faultRec : Option FaultRecord
  /-- R120, R127: the words the one issuer has yet to present, the next one first (DESIGN CHOICE, log entry 3). -/
  pending : List Command
deriving DecidableEq, Repr

/-- R36, R37, R115: the block at its creation. No command has been presented and none is waiting (DESIGN CHOICE, log entries 2 and 3). -/
def State.reset : State where
  af := 0x0000
  bc := 0x0000
  de := 0x0000
  hl := 0x0000
  sp := 0x0000
  pc := 0x0000
  mem := []
  sel := 1
  resp := none
  faultRec := none
  pending := []

end Sys2Proof.Machine
end

