-- ==== Sys2Proof/Machine/Ops.lean ====
section
/-! DEFINITION. The shared operations: the register cells (R16), the bank bytes (R29), address resolution (R40), the access
primitives (R44, R45), the response (R60) and the entry into a fault (R104). There is no return from a fault (R105). -/

namespace Sys2Proof.Machine

/-! ### Register cells -/

/-- R16: `x[p]`. -/
def State.readReg (s : State) : Reg → Word
  | .af => s.af
  | .bc => s.bc
  | .de => s.de
  | .hl => s.hl
  | .sp => s.sp
  | .pc => s.pc

/-- R16: `x[p] <- v`. -/
def State.writeReg (s : State) (p : Reg) (v : Word) : State :=
  match p with
  | .af => { s with af := v }
  | .bc => { s with bc := v }
  | .de => { s with de := v }
  | .hl => { s with hl := v }
  | .sp => { s with sp := v }
  | .pc => { s with pc := v }

/-! ### Bank bytes -/

/-- The byte at a key; an unlisted key reads as the fill byte (R37). -/
def Memory.read : Memory → Nat → Byte
  | [], _ => Config.fillByte
  | c :: rest, k => if c.1 = k then c.2 else Memory.read rest k

/-- Puts a byte in front of a memory whose keys are all larger, unless it is the fill byte. -/
def Memory.consByte (k : Nat) (v : Byte) (rest : Memory) : Memory :=
  if v = Config.fillByte then rest else (k, v) :: rest

/-- Writes the byte at a key and keeps the canonical form. -/
def Memory.write (k : Nat) (v : Byte) : Memory → Memory
  | [] => Memory.consByte k v []
  | c :: rest =>
    if k < c.1 then Memory.consByte k v (c :: rest)
    else if k = c.1 then Memory.consByte k v rest
    else c :: Memory.write k v rest

/-- The key of `bank[b][o]` in the storage of R29. -/
def Place.key (p : Place) : Nat := p.bank.toNat * Config.bankSize + p.offset.toNat

/-- R16: `bank[b][o]`. -/
def State.readByte (s : State) (p : Place) : Byte := Memory.read s.mem p.key

/-- R16: `bank[b][o] <- v`. -/
def State.writeByte (s : State) (p : Place) (v : Byte) : State :=
  { s with mem := Memory.write p.key v s.mem }

/-! ### The window -/

/-- R39: an address is in the window that starts at `ws`. -/
def inWindowAt (ws : Nat) (addr : Addr) : Bool :=
  ws ≤ addr.toNat && addr.toNat < ws + Config.windowSize

/-- R40: address resolution in the window that starts at `ws`; none stands for `raise OutOfRange(addr)`. -/
def resolveAt (ws : Nat) (sel : BankNo) (addr : Addr) : Option Place :=
  if inWindowAt ws addr then
    if addr.toNat < ws + Config.half then some ⟨0, BitVec.ofNat 12 (addr.toNat - ws)⟩
    else some ⟨sel, BitVec.ofNat 12 (addr.toNat - (ws + Config.half))⟩
  else none

/-- R39: an address is in this hardware's window, 0xC000 to 0xDFFF (R11). -/
def inWindow (addr : Addr) : Bool := inWindowAt Config.windowStart addr

/-- R40: `resolve(addr)` on this hardware. -/
def State.resolve (s : State) (addr : Addr) : Option Place :=
  resolveAt Config.windowStart s.sel addr

/-- R44: `MemRead(addr, 1)`; none where resolution raises OutOfRange. -/
def State.memRead (s : State) (addr : Addr) : Option Byte :=
  (s.resolve addr).map s.readByte

/-- R45: `MemWrite(addr, 1, v)`; none, and nothing written, where resolution raises OutOfRange. -/
def State.memWrite (s : State) (addr : Addr) (v : Byte) : Option State :=
  (s.resolve addr).map (s.writeByte · v)

/-! ### The bank-select index -/

/-- R96: `i <- d8[2:0]`, and 0 is coerced to 1. -/
def selOf (d8 : Byte) : BankNo :=
  if d8.extractLsb' 0 3 = 0 then 1 else d8.extractLsb' 0 3

/-- R30: `sel <- i`. -/
def State.setSel (s : State) (i : BankNo) : State := { s with sel := i }

/-- R31: the control register's read value, `0b11111 || sel`. -/
def State.controlValue (s : State) : Byte := 0b11111#5 ++ s.sel

/-! ### Responses and faults -/

/-- R15: `zext_16` of a byte. -/
def zext16 (v : Byte) : Word := v.setWidth 16

/-- R60: the code of a status. -/
def Status.code : Status → BitVec 2
  | .ok => 0
  | .outOfRange => 1
  | .illegalCommand => 2

/-- R60: `resp <- (OK, rdata)`. -/
def State.respond (s : State) (rdata : Word) : State :=
  { s with resp := some ⟨.ok, rdata⟩ }

/-- R104: the status a fault is reported with. -/
def FaultRecord.status : FaultRecord → Status
  | .outOfRange _ _ => .outOfRange
  | .illegalCommand _ => .illegalCommand

/-- R104: the command word that faulted. -/
def FaultRecord.cmd : FaultRecord → Command
  | .outOfRange cmd _ => cmd
  | .illegalCommand cmd => cmd

/-- R104: taking a fault. The response is `(status, 0x0000)`, the fault record is set, and nothing else changes:
no register, no bank byte, no `sel`. That the block then accepts no command is `step`'s (R104, item 4; DEDUCED,
log entry 5). -/
def State.takeFault (s : State) (r : FaultRecord) : State :=
  { s with resp := some ⟨r.status, 0x0000⟩, faultRec := some r }

/-! ### The command port -/

/-- R120: the commands the issuer has yet to present. -/
def State.setPending (s : State) (cmds : List Command) : State := { s with pending := cmds }

end Sys2Proof.Machine
end

