-- ==== Sys2Proof/Machine/ControlCommands.lean ====
section
/-! DEFINITION. The bank-select control commands (43_control_ops.md R95 to R99). Both run in every mode: the block has no mode (R98). -/

namespace Sys2Proof.Machine

/-- R95. -/
def execCrd (s : State) : Host.Outcome State Fault Refusal :=
  .next (s.respond (zext16 s.controlValue))

/-- R96. -/
def execCwr (d8 : Byte) (s : State) : Host.Outcome State Fault Refusal :=
  .next ((s.setSel (selOf d8)).respond 0x0000)

end Sys2Proof.Machine
end

