-- ==== Sys2Proof/Machine/Operands.lean ====
section
/-! DEFINITION. The three views of a register (10_state.md R21, R22): the whole word, the high lane (bits 15..8) and the low
lane (bits 7..0). There is one storage cell per register, so the views alias by construction. -/

namespace Sys2Proof.Machine

/-- R22: bits 15..8 of a word. -/
def hiLane (w : Word) : Byte := w.extractLsb' 8 8

/-- R22: bits 7..0 of a word. -/
def loLane (w : Word) : Byte := w.extractLsb' 0 8

/-- R22: `(high << 8) | low`, written `high || low`. -/
def joinLanes (high low : Byte) : Word := high ++ low

/-- R16: `hi(p)`. -/
def State.readHi (s : State) (p : Reg) : Byte := hiLane (s.readReg p)

/-- R16: `lo(p)`. -/
def State.readLo (s : State) (p : Reg) : Byte := loLane (s.readReg p)

/-- R82: `x[p] <- d8 || x[p][7:0]`. -/
def State.writeHi (s : State) (p : Reg) (d8 : Byte) : State :=
  s.writeReg p (joinLanes d8 (s.readLo p))

/-- R84: `x[p] <- x[p][15:8] || d8`. -/
def State.writeLo (s : State) (p : Reg) (d8 : Byte) : State :=
  s.writeReg p (joinLanes (s.readHi p) d8)

end Sys2Proof.Machine
end

