-- ==== Sys2Proof/Machine/Flags.lean ====
section
/-! DEFINITION. The flag sub-register, the low lane of AF (10_state.md R26 to R28, 41_flag_ops.md). Bits 7..4 are Z, N, H and C;
bits 3..0 are the reserved nibble, ordinary storage (R28). No command computes a flag (R27, R90). -/

namespace Sys2Proof.Machine

/-- R26: bit `f` of AF. -/
def State.getFlag (s : State) (f : Flag) : Bool := (s.readReg .af).getLsbD f.bit

/-- R26, R28: the reserved nibble `x[AF][3:0]`. -/
def State.reservedNibble (s : State) : BitVec 4 := (s.readReg .af).extractLsb' 0 4

/-- R15: `1 << f` at the width of a register. -/
def flagMask (f : Flag) : Word := 1#16 <<< f.bit

/-- R88: `x[AF] | (1 << f)` or `x[AF] & ~(1 << f)`. -/
def flagWord (af : Word) (f : Flag) (v : Bool) : Word :=
  if v then af ||| flagMask f else af &&& ~~~ (flagMask f)

/-- R88: writes one flag. -/
def State.setFlag (s : State) (f : Flag) (v : Bool) : State :=
  s.writeReg .af (flagWord (s.readReg .af) f v)

/-- R87: `zext_16` of one bit. -/
def bitWord (v : Bool) : Word := (BitVec.ofBool v).setWidth 16

end Sys2Proof.Machine
end

