-- ==== Sys2Proof/Machine/FlagCommands.lean ====
section
/-! DEFINITION. The flag commands (41_flag_ops.md R87 to R90). -/

namespace Sys2Proof.Machine

/-- R87. -/
def execGetf (f : Flag) (s : State) : Host.Outcome State Fault Refusal :=
  .next (s.respond (bitWord (s.getFlag f)))

/-- R88. -/
def execSetf (f : Flag) (v : Bool) (s : State) : Host.Outcome State Fault Refusal :=
  .next ((s.setFlag f v).respond 0x0000)

end Sys2Proof.Machine
end

