-- ==== Sys2Proof/Machine/MemoryCommands.lean ====
section
/-! DEFINITION. The memory commands (42_memory_ops.md R91 to R94). An address outside the window takes the OutOfRange fault
(60_exceptions.md R100, R104); its record holds the command word, which is the encoding of the command (R69, R100;
DEDUCED, log entry 5). -/

namespace Sys2Proof.Machine

/-- R91. -/
def execMrd (a16 : Addr) (s : State) : Host.Outcome State Fault Refusal :=
  match s.memRead a16 with
  | some v => .next (s.respond (zext16 v))
  | none => .next (s.takeFault (.outOfRange (encode (.mrd a16)) a16))

/-- R92. -/
def execMwr (a16 : Addr) (d8 : Byte) (s : State) : Host.Outcome State Fault Refusal :=
  match s.memWrite a16 d8 with
  | some t => .next (t.respond 0x0000)
  | none => .next (s.takeFault (.outOfRange (encode (.mwr a16 d8)) a16))

end Sys2Proof.Machine
end

