-- ==== Sys2Proof/Machine/RegisterCommands.lean ====
section
/-! DEFINITION. The register commands (40_register_ops.md R79 to R86). A lane command that names SP or PC is no command: its word
is ILLEGAL_COMMAND (R23, R66), and its meaning is that fault, the one the decoder raises for the same word
(DEDUCED, log entry 9). -/

namespace Sys2Proof.Machine

/-- R101, R104: a command whose word decoding refuses takes the IllegalCommand fault. -/
def takeIllegal (i : Instr) (s : State) : State := s.takeFault (.illegalCommand (encode i))

/-- R79. -/
def execRd16 (p : Reg) (s : State) : Host.Outcome State Fault Refusal :=
  .next (s.respond (s.readReg p))

/-- R80. -/
def execWr16 (p : Reg) (d16 : Word) (s : State) : Host.Outcome State Fault Refusal :=
  .next ((s.writeReg p d16).respond 0x0000)

/-- R81. -/
def execRdh (p : Reg) (s : State) : Host.Outcome State Fault Refusal :=
  if p.isPair then .next (s.respond (zext16 (s.readHi p)))
  else .next (takeIllegal (.rdh p) s)

/-- R82. -/
def execWrh (p : Reg) (d8 : Byte) (s : State) : Host.Outcome State Fault Refusal :=
  if p.isPair then .next ((s.writeHi p d8).respond 0x0000)
  else .next (takeIllegal (.wrh p d8) s)

/-- R83. -/
def execRdl (p : Reg) (s : State) : Host.Outcome State Fault Refusal :=
  if p.isPair then .next (s.respond (zext16 (s.readLo p)))
  else .next (takeIllegal (.rdl p) s)

/-- R84. -/
def execWrl (p : Reg) (d8 : Byte) (s : State) : Host.Outcome State Fault Refusal :=
  if p.isPair then .next ((s.writeLo p d8).respond 0x0000)
  else .next (takeIllegal (.wrl p d8) s)

end Sys2Proof.Machine
end

