-- ==== Sys2Proof/Machine/Dispatch.lean ====
section
/-! DEFINITION. One arm per command (30_encoding.md R63). -/

namespace Sys2Proof.Machine

def exec (i : Instr) (s : State) : Host.Outcome State Fault Refusal :=
  match i with
  | .rd16 p => Sys2Proof.Machine.execRd16 p s
  | .wr16 p d16 => Sys2Proof.Machine.execWr16 p d16 s
  | .rdh p => Sys2Proof.Machine.execRdh p s
  | .wrh p d8 => Sys2Proof.Machine.execWrh p d8 s
  | .rdl p => Sys2Proof.Machine.execRdl p s
  | .wrl p d8 => Sys2Proof.Machine.execWrl p d8 s
  | .getf f => Sys2Proof.Machine.execGetf f s
  | .setf f v => Sys2Proof.Machine.execSetf f v s
  | .mrd a16 => Sys2Proof.Machine.execMrd a16 s
  | .mwr a16 d8 => Sys2Proof.Machine.execMwr a16 d8 s
  | .crd => Sys2Proof.Machine.execCrd s
  | .cwr d8 => Sys2Proof.Machine.execCwr d8 s

end Sys2Proof.Machine
end

