-- ==== Sys2Proof/Machine/Port.lean ====
section
/-! DEFINITION. The command port (30_encoding.md R59, R69): what the block does with the word presented in a step. -/

namespace Sys2Proof.Machine

/-- R69, R101, R103: the word is decoded first. A word that is no command takes the IllegalCommand fault, whatever its
other fields hold; a command has its effect. -/
def acceptCommand (cmd : Command) (s : State) : Host.Outcome State Fault Refusal :=
  match decode cmd with
  | .ok i => exec i s
  | .error _ => .next (s.takeFault (.illegalCommand cmd))

/-- R25, R127: a step in which the issuer presents no command. The block holds its state (DESIGN CHOICE, log entry 3). -/
def idle (s : State) : Host.Outcome State Fault Refusal := .next s

/-- R120: the issuer presents `cmd` before whatever else it was going to present. -/
def State.present (s : State) (cmd : Command) : State := s.setPending (cmd :: s.pending)

end Sys2Proof.Machine
end

