-- ==== Sys2Proof/Machine/Step.lean ====
section
/-! DEFINITION. One step: one command of the issuer (00_scope.md R17, 20_memory.md R54), or none. -/

namespace Sys2Proof.Machine

/-- R17, R59, R104: a faulted block accepts no command; otherwise the next word the issuer presents is accepted. -/
def step (s : State) : Host.Outcome State Fault Refusal :=
  match s.faultRec with
  | some r => .fault (.blockStopped r)
  | none =>
    match s.pending with
    | [] => idle s
    | cmd :: rest => acceptCommand cmd (s.setPending rest)

/-- `s` with the table word `w` presented next (DESIGN CHOICE, log entry 3). -/
def State.withFetchWord (s : State) (nbits w : Nat) : State := s.present (tableWord nbits w)

end Sys2Proof.Machine
end

