-- ==== Sys2Proof/Machine/Assembler.lean ====
section
/-! DEFINITION. The assembler syntax of 30_encoding.md R73: one command a line, the mnemonic, then its operands separated by
commas. A line that is not of one of the twelve forms, or whose number does not fit its operand, is refused. There are no
pseudo-instructions and no byte-register names (R74). Layout and letter case are the model's (DESIGN CHOICE, log entry 6). -/

namespace Sys2Proof.Machine

/-! ### Words of a line -/

/-- A line without the spaces before its first character. -/
def trimLeft : List Char → List Char
  | [] => []
  | c :: rest => if c = ' ' then trimLeft rest else c :: rest

/-- A line without the spaces around it. -/
def trim (cs : List Char) : List Char := (trimLeft (trimLeft cs).reverse).reverse

/-- The parts of a line between the characters `sep`. -/
def splitAtChar (sep : Char) : List Char → List (List Char)
  | [] => [[]]
  | c :: rest =>
    if c = sep then [] :: splitAtChar sep rest
    else
      match splitAtChar sep rest with
      | [] => [[c]]
      | part :: parts => (c :: part) :: parts

/-- The operands after a mnemonic: none for an empty rest of the line. -/
def operandWords (cs : List Char) : List (List Char) :=
  if trim cs = [] then [] else (splitAtChar ',' cs).map trim

/-! ### Numbers: decimal, 0x hexadecimal, 0b binary (R73) -/

/-- The value of a digit in a base; none for a character that is no digit of it. -/
def digitValue (base : Nat) (c : Char) : Option Nat :=
  let n := c.toNat
  let v :=
    if 48 ≤ n ∧ n ≤ 57 then some (n - 48)
    else if 65 ≤ n ∧ n ≤ 70 then some (n - 55)
    else if 97 ≤ n ∧ n ≤ 102 then some (n - 87)
    else none
  v.filter (· < base)

/-- The value of digits read after `acc`. -/
def digitsFrom (base acc : Nat) : List Char → Option Nat
  | [] => some acc
  | c :: rest => (digitValue base c).bind (fun d => digitsFrom base (acc * base + d) rest)

/-- The value of a string of digits; an empty string is no number. -/
def digits (base : Nat) (cs : List Char) : Option Nat :=
  if cs = [] then none else digitsFrom base 0 cs

/-- R15, R73: a number. An underscore inside a binary literal only groups digits. -/
def parseNumber : List Char → Option Nat
  | '0' :: 'x' :: rest => digits 16 rest
  | '0' :: 'b' :: rest => digits 2 (rest.filter (· ≠ '_'))
  | cs => digits 10 cs

/-- R73: a number "must fit" its operand unsigned, "or the assembler refuses the line". -/
def immediate (width : Nat) (cs : List Char) : Option (BitVec width) :=
  (parseNumber cs).bind (fun n => if n < 2 ^ width then some (BitVec.ofNat width n) else none)

/-! ### Names (R73) -/

/-- `r16`: AF, BC, DE, HL, SP or PC. -/
def regName (cs : List Char) : Option Reg :=
  if cs = ['A', 'F'] then some .af
  else if cs = ['B', 'C'] then some .bc
  else if cs = ['D', 'E'] then some .de
  else if cs = ['H', 'L'] then some .hl
  else if cs = ['S', 'P'] then some .sp
  else if cs = ['P', 'C'] then some .pc
  else none

/-- `r8p`: AF, BC, DE or HL. -/
def pairName (cs : List Char) : Option Reg := (regName cs).filter Reg.isPair

/-- `flag`: Z, N, H or C. -/
def flagName (cs : List Char) : Option Flag :=
  if cs = ['Z'] then some .z
  else if cs = ['N'] then some .n
  else if cs = ['H'] then some .h
  else if cs = ['C'] then some .c
  else none

/-- The mnemonics of R63. -/
def mnemonicName (cs : List Char) : Option Op :=
  if cs = ['R', 'D', '1', '6'] then some .rd16
  else if cs = ['W', 'R', '1', '6'] then some .wr16
  else if cs = ['R', 'D', 'H'] then some .rdh
  else if cs = ['W', 'R', 'H'] then some .wrh
  else if cs = ['R', 'D', 'L'] then some .rdl
  else if cs = ['W', 'R', 'L'] then some .wrl
  else if cs = ['G', 'E', 'T', 'F'] then some .getf
  else if cs = ['S', 'E', 'T', 'F'] then some .setf
  else if cs = ['M', 'R', 'D'] then some .mrd
  else if cs = ['M', 'W', 'R'] then some .mwr
  else if cs = ['C', 'R', 'D'] then some .crd
  else if cs = ['C', 'W', 'R'] then some .cwr
  else none

/-! ### Lines -/

/-- Reads exactly no operand. -/
def noOperand (i : Instr) : List (List Char) → Option Instr
  | [] => some i
  | _ :: _ => none

/-- Reads exactly one operand. -/
def oneOperand {α : Type} (read : List Char → Option α) (make : α → Instr) : List (List Char) → Option Instr
  | [x] => (read x).map make
  | _ => none

/-- Reads exactly two operands. -/
def twoOperands {α β : Type} (readA : List Char → Option α) (readB : List Char → Option β) (make : α → β → Instr) :
    List (List Char) → Option Instr
  | [x, y] => (readA x).bind (fun a => (readB y).map (make a))
  | _ => none

/-- The command of a mnemonic and its operands, by the form R73 gives it. -/
def parseOperands (op : Op) (words : List (List Char)) : Option Instr :=
  match op with
  | .rd16 => oneOperand regName .rd16 words
  | .wr16 => twoOperands regName (immediate 16) .wr16 words
  | .rdh => oneOperand pairName .rdh words
  | .wrh => twoOperands pairName (immediate 8) .wrh words
  | .rdl => oneOperand pairName .rdl words
  | .wrl => twoOperands pairName (immediate 8) .wrl words
  | .getf => oneOperand flagName .getf words
  | .setf => twoOperands flagName (immediate 1) (fun f v => .setf f (v == 1)) words
  | .mrd => oneOperand (immediate 16) .mrd words
  | .mwr => twoOperands (immediate 16) (immediate 8) .mwr words
  | .crd => noOperand .crd words
  | .cwr => oneOperand (immediate 8) .cwr words

/-- The command of a line. -/
def parseChars (line : List Char) : Option Instr :=
  let cs := trim line
  (mnemonicName (cs.takeWhile (· ≠ ' '))).bind (fun op => parseOperands op (operandWords (cs.dropWhile (· ≠ ' '))))

/-- R73: the command word of a line of text; none for a line the assembler refuses. -/
def assemble (line : String) : Option Command := (parseChars line.toList).map encode

end Sys2Proof.Machine
end

