-- ==== Sys2Proof/Safety.lean ====
section
/-! DEFINITION. The terms claims are stated in: what a command leaves unchanged, the invariant every step keeps, what the
contract asks of the issuer (70_reset_and_hazards.md R120 to R122), and what the writes of a run leave behind (20_memory.md R53). -/

namespace Sys2Proof.Machine

/-! ### Frames -/

/-- Every register holds what it held. -/
abbrev SameRegs (s t : State) : Prop := ∀ q, t.readReg q = s.readReg q

/-- Every register but `p` holds what it held. -/
abbrev SameRegsBut (p : Reg) (s t : State) : Prop := ∀ q, q ≠ p → t.readReg q = s.readReg q

/-- Every byte of every bank reads as it read. -/
abbrev SameBytes (s t : State) : Prop := ∀ b, t.readByte b = s.readByte b

/-- Every byte of every bank but `p` reads as it read. -/
abbrev SameBytesBut (p : Place) (s t : State) : Prop := ∀ b, b ≠ p → t.readByte b = s.readByte b

/-- The command changed nothing but the response port, which it left at `(OK, rdata)`: a read. -/
structure OnlyAnswers (rdata : Word) (s t : State) : Prop where
  regs : SameRegs s t
  bytes : SameBytes s t
  sel : t.sel = s.sel
  record : t.faultRec = s.faultRec
  pending : t.pending = s.pending
  resp : t.resp = some ⟨.ok, rdata⟩

/-- The command wrote `v` to register `p`, answered `(OK, 0)`, and changed nothing else. -/
structure OnlyWritesReg (p : Reg) (v : Word) (s t : State) : Prop where
  written : t.readReg p = v
  regs : SameRegsBut p s t
  bytes : SameBytes s t
  sel : t.sel = s.sel
  record : t.faultRec = s.faultRec
  pending : t.pending = s.pending
  resp : t.resp = some ⟨.ok, 0x0000⟩

/-- The command changed no byte of memory but `p`, answered `(OK, 0)`, and changed nothing else. What `p` reads as
afterwards is said apart, since it needs the memory's canonical form. -/
structure OnlyStoresAt (p : Place) (s t : State) : Prop where
  regs : SameRegs s t
  bytes : SameBytesBut p s t
  sel : t.sel = s.sel
  record : t.faultRec = s.faultRec
  pending : t.pending = s.pending
  resp : t.resp = some ⟨.ok, 0x0000⟩

/-- The command made `i` the bank-select index, answered `(OK, 0)`, and changed nothing else. -/
structure OnlySelects (i : BankNo) (s t : State) : Prop where
  selected : t.sel = i
  regs : SameRegs s t
  bytes : SameBytes s t
  record : t.faultRec = s.faultRec
  pending : t.pending = s.pending
  resp : t.resp = some ⟨.ok, 0x0000⟩

/-- R104: the command took the fault `r`: the response and the fault record say so, and nothing else changed. -/
structure OnlyFaults (r : FaultRecord) (s t : State) : Prop where
  regs : SameRegs s t
  bytes : SameBytes s t
  sel : t.sel = s.sel
  pending : t.pending = s.pending
  resp : t.resp = some ⟨r.status, 0x0000⟩
  record : t.faultRec = some r

end Sys2Proof.Machine

namespace Sys2Proof

/-! ### Commands by what they do -/

/-- The address a memory command names. -/
def Instr.address : Instr → Option Addr
  | .rd16 _ => none
  | .wr16 _ _ => none
  | .rdh _ => none
  | .wrh _ _ => none
  | .rdl _ => none
  | .wrl _ _ => none
  | .getf _ => none
  | .setf _ _ => none
  | .mrd a16 => some a16
  | .mwr a16 _ => some a16
  | .crd => none
  | .cwr _ => none

/-- The write commands: the four register writes, SETF, MWR and CWR. The other six are the read commands of R60. -/
def Instr.isWrite : Instr → Bool
  | .rd16 _ => false
  | .wr16 _ _ => true
  | .rdh _ => false
  | .wrh _ _ => true
  | .rdl _ => false
  | .wrl _ _ => true
  | .getf _ => false
  | .setf _ _ => true
  | .mrd _ => false
  | .mwr _ _ => true
  | .crd => false
  | .cwr _ => true

/-- The commands of the register file (R2): the register and flag commands. The other four are the banked memory's. -/
def Instr.ofRegisterFile : Instr → Bool
  | .rd16 _ => true
  | .wr16 _ _ => true
  | .rdh _ => true
  | .wrh _ _ => true
  | .rdl _ => true
  | .wrl _ _ => true
  | .getf _ => true
  | .setf _ _ => true
  | .mrd _ => false
  | .mwr _ _ => false
  | .crd => false
  | .cwr _ => false

/-- R122 (2): the commands an issuer in legacy mode never presents. -/
def Instr.isControl : Instr → Bool
  | .rd16 _ => false
  | .wr16 _ _ => false
  | .rdh _ => false
  | .wrh _ _ => false
  | .rdl _ => false
  | .wrl _ _ => false
  | .getf _ => false
  | .setf _ _ => false
  | .mrd _ => false
  | .mwr _ _ => false
  | .crd => true
  | .cwr _ => true

/-- The bank-select index after a command, from the one before it (R96). -/
def Instr.selAfter (sel : BankNo) : Instr → BankNo
  | .rd16 _ => sel
  | .wr16 _ _ => sel
  | .rdh _ => sel
  | .wrh _ _ => sel
  | .rdl _ => sel
  | .wrl _ _ => sel
  | .getf _ => sel
  | .setf _ _ => sel
  | .mrd _ => sel
  | .mwr _ _ => sel
  | .crd => sel
  | .cwr d8 => if d8.toNat % 8 = 0 then 1 else BitVec.ofNat 3 (d8.toNat % 8)

/-- The byte at `p` after a command issued while `sel` is selected, from the one before it (R40, R92). -/
def Instr.byteAfter (p : Machine.Place) (sel : BankNo) (v : Byte) : Instr → Byte
  | .rd16 _ => v
  | .wr16 _ _ => v
  | .rdh _ => v
  | .wrh _ _ => v
  | .rdl _ => v
  | .wrl _ _ => v
  | .getf _ => v
  | .setf _ _ => v
  | .mrd _ => v
  | .mwr a16 d8 => if Machine.resolveAt Config.windowStart sel a16 = some p then d8 else v
  | .crd => v
  | .cwr _ => v

/-- The contents of register `q` after a command, from those before it: `(d8 << 8) | old_low` for the high lane (R82),
the old high lane and `d8` for the low lane (R84), one bit for a flag (R88). -/
def Instr.regAfter (q : Reg) (v : Word) : Instr → Word
  | .rd16 _ => v
  | .wr16 p d16 => if p = q then d16 else v
  | .rdh _ => v
  | .wrh p d8 => if p = q then (d8.setWidth 16 <<< 8) ||| (v &&& 0x00FF#16) else v
  | .rdl _ => v
  | .wrl p d8 => if p = q then (v &&& 0xFF00#16) ||| d8.setWidth 16 else v
  | .getf _ => v
  | .setf f b => if Reg.af = q then (if b then v ||| (1#16 <<< f.bit) else v &&& ~~~ (1#16 <<< f.bit)) else v
  | .mrd _ => v
  | .mwr _ _ => v
  | .crd => v
  | .cwr _ => v

/-! ### Names of the assembler (R73) -/

/-- R73: the name of a register in a line. -/
def Reg.name : Reg → String
  | .af => "AF"
  | .bc => "BC"
  | .de => "DE"
  | .hl => "HL"
  | .sp => "SP"
  | .pc => "PC"

/-- R73: the name of a flag in a line. -/
def Flag.name : Flag → String
  | .z => "Z"
  | .n => "N"
  | .h => "H"
  | .c => "C"

/-! ### The issuer's contract (R120 to R122) -/

/-- R122 (1): the issuer presents only addresses in the window. -/
def Instr.inContract (i : Instr) : Bool :=
  match i.address with
  | none => true
  | some a => Machine.inWindow a

end Sys2Proof

namespace Sys2Proof.Machine

/-- R122 (1): a word that decodes to a command whose address, if it names one, is in the window. -/
def Correct (cmd : Command) : Prop := ∃ i, decode cmd = .ok i ∧ i.inContract = true

/-- The hardware mode the caller owns (R6, R98, R109). The block neither holds nor reads it. -/
inductive IssuerMode where
  | legacy | extended
deriving DecidableEq, Repr

/-- R122: what the contract lets an issuer present in a mode. In legacy mode it presents no control command (2). -/
def CorrectIn (m : IssuerMode) (cmd : Command) : Prop :=
  ∃ i, decode cmd = .ok i ∧ i.inContract = true ∧ (m = .legacy → i.isControl = false)

/-! ### What the writes of a run leave behind (R53) -/

/-- The bank-select index after a list of commands. -/
def selAfterAll (sel : BankNo) (is : List Instr) : BankNo := is.foldl Instr.selAfter sel

/-- The byte at `p` after a list of commands that begins with `sel` selected and `v` at `p`: the last write to it, or `v`. -/
def byteAfterAll (p : Place) (sel : BankNo) (v : Byte) : List Instr → Byte
  | [] => v
  | i :: is => byteAfterAll p (i.selAfter sel) (i.byteAfter p sel v) is

/-- The contents of register `q` after a list of commands that begins with `v` in it. -/
def regAfterAll (q : Reg) (v : Word) (is : List Instr) : Word := is.foldl (Instr.regAfter q) v

/-! ### The invariant every step keeps -/

/-- R100, R101: what a fault record may hold. An OutOfRange record holds a command word that decodes to a memory command
of the recorded address, which is outside the window; an IllegalCommand record holds a word that decoding refuses. -/
def FaultRecord.Genuine : FaultRecord → Prop
  | .outOfRange cmd a16 => (∃ i, decode cmd = .ok i ∧ i.address = some a16) ∧ inWindow a16 = false
  | .illegalCommand cmd => ∀ i, decode cmd ≠ .ok i

/-- The invariant of the machine. -/
structure Inv (s : State) : Prop where
  /-- The memory has its canonical form. -/
  memory : Memory.wf s.mem
  /-- R30: the bank-select index is never 0. -/
  selected : s.sel ≠ 0
  /-- R104: a fault record is genuine, and the last response reports it. -/
  faulted : ∀ r, s.faultRec = some r → r.Genuine ∧ s.resp = some ⟨r.status, 0x0000⟩
  /-- R60, R104: without a fault record, every response so far was OK. -/
  running : ∀ a, s.faultRec = none → s.resp = some a → a.status = .ok

/-- A safe run: `n` steps from `s` end in a state that has taken no fault. -/
def RunsSafely (n : Nat) (s t : State) : Prop :=
  Sys2Proof.core.run n s = .next t ∧ t.faultRec = none

end Sys2Proof.Machine
end

