-- ==== Sys2Proof/Certificates/Slice0/Obligations.lean ====
section
/-! DEFINITION. The statements for the provers. Each formalises a rule of spec/ or is derived from its sections, as
OBLIGATIONS.json says. -/

open Sys2Proof Sys2Proof.Machine

/-! ### Register commands (40_register_ops.md) -/

/-- R79, whole: the encoding, the reserved selectors, and the effect. Reading AF returns the flag sub-register with it. -/
def Obligations.Rd16AnswersTheWholeRegister : Prop :=
  (∀ p : Reg, decode (0x0#4 ++ p.selector ++ 0#24) = .ok (.rd16 p)) ∧
  (∀ sf : Selector, 5 < sf.toNat → decode (0x0#4 ++ sf ++ 0#24) = .error .selector) ∧
  ∀ (p : Reg) (s : State), ∃ t, exec (.rd16 p) s = .next t ∧ OnlyAnswers (s.readReg p) s t

/-- R80, whole: the register is `d16`, both lanes with it, and for AF the four flags and the reserved nibble. -/
def Obligations.Wr16WritesTheWholeRegister : Prop :=
  (∀ (p : Reg) (d16 : Word), decode (0x1#4 ++ p.selector ++ 0#8 ++ d16) = .ok (.wr16 p d16)) ∧
  (∀ (sf : Selector) (d16 : Word), 5 < sf.toNat → decode (0x1#4 ++ sf ++ 0#8 ++ d16) = .error .selector) ∧
  ∀ (p : Reg) (d16 : Word) (s : State), ∃ t, exec (.wr16 p d16) s = .next t ∧ OnlyWritesReg p d16 s t ∧
    t.readHi p = d16.extractLsb' 8 8 ∧ t.readLo p = d16.extractLsb' 0 8 ∧
    (p = .af → t.getFlag .z = d16.getLsbD 7 ∧ t.getFlag .n = d16.getLsbD 6 ∧ t.getFlag .h = d16.getLsbD 5 ∧
      t.getFlag .c = d16.getLsbD 4 ∧ t.reservedNibble = d16.extractLsb' 0 4) ∧
    (p ≠ .af → ∀ f, t.getFlag f = s.getFlag f)

/-- R81, whole: the high lane of a pair, zero-extended; the word of a lane of SP, of PC or of a reserved selector
is illegal. -/
def Obligations.RdhAnswersTheHighLane : Prop :=
  (∀ p : Reg, p.isPair = true → decode (0x2#4 ++ p.selector ++ 0#24) = .ok (.rdh p)) ∧
  (∀ sf : Selector, 3 < sf.toNat → decode (0x2#4 ++ sf ++ 0#24) = .error .selector) ∧
  ∀ (p : Reg) (s : State), p.isPair = true → ∃ t, exec (.rdh p) s = .next t ∧ OnlyAnswers (s.readReg p >>> 8) s t

/-- R82, whole: the pair is `(d8 << 8) | old_low`, its low lane and every flag as before. -/
def Obligations.WrhWritesTheHighLane : Prop :=
  (∀ (p : Reg) (d8 : Byte), p.isPair = true → decode (0x3#4 ++ p.selector ++ 0#16 ++ d8) = .ok (.wrh p d8)) ∧
  (∀ (sf : Selector) (d8 : Byte), 3 < sf.toNat → decode (0x3#4 ++ sf ++ 0#16 ++ d8) = .error .selector) ∧
  ∀ (p : Reg) (d8 : Byte) (s : State), p.isPair = true → ∃ t, exec (.wrh p d8) s = .next t ∧
    OnlyWritesReg p ((d8.setWidth 16 <<< 8) ||| (s.readReg p &&& 0x00FF#16)) s t ∧
    t.readLo p = s.readLo p ∧ t.readHi p = d8 ∧ ∀ f, t.getFlag f = s.getFlag f

/-- R83, whole: the low lane of a pair, zero-extended; for AF the flag sub-register with its reserved nibble. -/
def Obligations.RdlAnswersTheLowLane : Prop :=
  (∀ p : Reg, p.isPair = true → decode (0x4#4 ++ p.selector ++ 0#24) = .ok (.rdl p)) ∧
  (∀ sf : Selector, 3 < sf.toNat → decode (0x4#4 ++ sf ++ 0#24) = .error .selector) ∧
  ∀ (p : Reg) (s : State), p.isPair = true →
    ∃ t, exec (.rdl p) s = .next t ∧ OnlyAnswers (s.readReg p &&& 0x00FF#16) s t

/-- R84, whole: the low lane is `d8` and the high lane as before; for AF that writes the flags and the reserved nibble. -/
def Obligations.WrlWritesTheLowLane : Prop :=
  (∀ (p : Reg) (d8 : Byte), p.isPair = true → decode (0x5#4 ++ p.selector ++ 0#16 ++ d8) = .ok (.wrl p d8)) ∧
  (∀ (sf : Selector) (d8 : Byte), 3 < sf.toNat → decode (0x5#4 ++ sf ++ 0#16 ++ d8) = .error .selector) ∧
  ∀ (p : Reg) (d8 : Byte) (s : State), p.isPair = true → ∃ t, exec (.wrl p d8) s = .next t ∧
    OnlyWritesReg p ((s.readReg p &&& 0xFF00#16) ||| d8.setWidth 16) s t ∧ t.readHi p = s.readHi p ∧ t.readLo p = d8 ∧
    (p = .af → t.getFlag .z = d8.getLsbD 7 ∧ t.getFlag .n = d8.getLsbD 6 ∧ t.getFlag .h = d8.getLsbD 5 ∧
      t.getFlag .c = d8.getLsbD 4 ∧ t.reservedNibble = d8.extractLsb' 0 4) ∧
    (p ≠ .af → ∀ f, t.getFlag f = s.getFlag f)

/-- The spec's "Alias consistency" (its own inference R85; S1): a word write seen through the lanes, and the lanes
written in either order seen as the word. -/
def Obligations.LanesAndWordAreOneCell : Prop :=
  ∀ (p : Reg) (s : State), p.isPair = true →
    (∀ v : Word, ∃ t hi lo, exec (.wr16 p v) s = .next t ∧ exec (.rdh p) t = .next hi ∧ exec (.rdl p) t = .next lo ∧
      hi.resp = some ⟨.ok, v >>> 8⟩ ∧ lo.resp = some ⟨.ok, v &&& 0x00FF#16⟩) ∧
    (∀ h l : Byte, ∃ t u w, exec (.wrh p h) s = .next t ∧ exec (.wrl p l) t = .next u ∧ exec (.rd16 p) u = .next w ∧
      w.resp = some ⟨.ok, (h.setWidth 16 <<< 8) ||| l.setWidth 16⟩) ∧
    (∀ h l : Byte, ∃ t u w, exec (.wrl p l) s = .next t ∧ exec (.wrh p h) t = .next u ∧ exec (.rd16 p) u = .next w ∧
      w.resp = some ⟨.ok, (h.setWidth 16 <<< 8) ||| l.setWidth 16⟩)

/-- R86, whole: a well-formed register or flag command answers OK in every state; and of the words with op 0 to 7, which are
those of these commands, a running block answers each that decodes with OK and takes the IllegalCommand fault for each other,
which is one that R66 or R67 reserves. -/
def Obligations.RegisterCommandsFailOnlyAtDecode : Prop :=
  (∀ (i : Instr) (s : State), i.ofRegisterFile = true → i.WellFormed →
    ∃ t v, exec i s = .next t ∧ t.resp = some ⟨.ok, v⟩ ∧ t.faultRec = s.faultRec) ∧
  ∀ (s : State) (cmd : Command) (rest : List Command), s.faultRec = none → s.pending = cmd :: rest →
    (cmd.extractLsb' 28 4).toNat ≤ 7 → ∃ t, step s = .next t ∧
      ((∃ i v, decode cmd = .ok i ∧ i.ofRegisterFile = true ∧ t.resp = some ⟨.ok, v⟩ ∧ t.faultRec = none) ∨
        ((decode cmd = .error .selector ∨ decode cmd = .error .mustBeZero) ∧
          t.faultRec = some (.illegalCommand cmd)))

/-- R28, whole: the reserved nibble is stored as written by WR16 AF and by WRL AF, and the reads of AF that cover it, RD16 AF and
RDL AF, return it. (That SETF keeps it is an inference of R88 and stands in `FlagsAreIndependent`.) -/
def Obligations.ReservedNibbleIsStored : Prop :=
  ∀ s : State,
    (∀ v : Word, ∃ t u w, exec (.wr16 .af v) s = .next t ∧ t.reservedNibble = v.extractLsb' 0 4 ∧
      exec (.rdl .af) t = .next u ∧ u.resp = some ⟨.ok, v &&& 0x00FF#16⟩ ∧
      exec (.rd16 .af) t = .next w ∧ w.resp = some ⟨.ok, v⟩) ∧
    (∀ d : Byte, ∃ t u w, exec (.wrl .af d) s = .next t ∧ t.reservedNibble = d.extractLsb' 0 4 ∧
      exec (.rdl .af) t = .next u ∧ u.resp = some ⟨.ok, d.setWidth 16⟩ ∧
      exec (.rd16 .af) t = .next w ∧ w.resp = some ⟨.ok, (s.readReg .af &&& 0xFF00#16) ||| d.setWidth 16⟩)

/-- The spec's own inference R25: a step changes PC, or SP, only by running a WR16 of it, and then to that command's
data. Nothing advances PC. -/
def Obligations.PcAndSpChangeOnlyByWr16 : Prop :=
  ∀ s t : State, step s = .next t →
    (t.pc ≠ s.pc → ∃ cmd rest, s.pending = cmd :: rest ∧ decode cmd = .ok (.wr16 .pc t.pc)) ∧
    (t.sp ≠ s.sp → ∃ cmd rest, s.pending = cmd :: rest ∧ decode cmd = .ok (.wr16 .sp t.sp))

/-! ### Flag commands (41_flag_ops.md) -/

/-- R87, whole: one flag, answered as 0x0000 or 0x0001. -/
def Obligations.GetfAnswersOneFlag : Prop :=
  (∀ f : Flag, decode (0x6#4 ++ f.selector ++ 0#24) = .ok (.getf f)) ∧
  (∀ sf : Selector, sf.toNat < 4 ∨ 7 < sf.toNat → decode (0x6#4 ++ sf ++ 0#24) = .error .selector) ∧
  ∀ (f : Flag) (s : State), ∃ t, exec (.getf f) s = .next t ∧
    OnlyAnswers (if (s.readReg .af).getLsbD f.bit then 0x0001 else 0x0000) s t

/-- R88, whole: one bit of AF by the rule's own formula, no other flag and not the high lane. (The rule's marked inference
about the reserved nibble stands in `FlagsAreIndependent`.) -/
def Obligations.SetfWritesOneFlag : Prop :=
  (∀ (f : Flag) (v : Bool), decode (0x7#4 ++ f.selector ++ 0#23 ++ BitVec.ofBool v) = .ok (.setf f v)) ∧
  (∀ (sf : Selector) (v : Bool), sf.toNat < 4 ∨ 7 < sf.toNat →
    decode (0x7#4 ++ sf ++ 0#23 ++ BitVec.ofBool v) = .error .selector) ∧
  (∀ (f : Flag) (x : BitVec 24), x.extractLsb' 1 23 ≠ 0 → decode (0x7#4 ++ f.selector ++ x) = .error .mustBeZero) ∧
  ∀ (f : Flag) (v : Bool) (s : State), ∃ t, exec (.setf f v) s = .next t ∧
    OnlyWritesReg .af
      (if v then s.readReg .af ||| (1#16 <<< f.bit) else s.readReg .af &&& ~~~ (1#16 <<< f.bit)) s t ∧
    t.getFlag f = v ∧ (∀ g, g ≠ f → t.getFlag g = s.getFlag g) ∧ t.readHi .af = s.readHi .af

/-- The spec's "Flag independence" (its own inference R89; S2), as what GETF answers after SETF; and, by the inference R88
marks in its corner cases, the reserved nibble keeps its bits. -/
def Obligations.FlagsAreIndependent : Prop :=
  ∀ (f : Flag) (v : Bool) (s : State), ∃ t u, exec (.setf f v) s = .next t ∧ exec (.getf f) t = .next u ∧
    u.resp = some ⟨.ok, if v then 0x0001 else 0x0000⟩ ∧ t.reservedNibble = s.reservedNibble ∧
    ∀ g, g ≠ f → ∃ w w', exec (.getf g) t = .next w ∧ exec (.getf g) s = .next w' ∧ w.resp = w'.resp

/-- The spec's own inference R27: a step changes a bit of the flag sub-register only by running WR16 AF, WRL AF or SETF. -/
def Obligations.FlagRegisterHasThreeWriters : Prop :=
  ∀ s t : State, step s = .next t → t.readLo .af ≠ s.readLo .af →
    ∃ cmd rest, s.pending = cmd :: rest ∧
      ((∃ v, decode cmd = .ok (.wr16 .af v)) ∨ (∃ d, decode cmd = .ok (.wrl .af d)) ∨
        (∃ f v, decode cmd = .ok (.setf f v) ∧ ∀ g, g ≠ f → t.getFlag g = s.getFlag g))

/-! ### Memory commands (42_memory_ops.md, 20_memory.md) -/

/-- R91, whole: the byte of bank 0 for the fixed half, of the selected bank for the switchable half, OutOfRange else. -/
def Obligations.MrdAnswersTheResolvedByte : Prop :=
  (∀ a : Addr, decode (0x8#4 ++ 0#4 ++ a ++ 0#8) = .ok (.mrd a)) ∧
  ∀ (a : Addr) (s : State),
    (0xC000 ≤ a.toNat → a.toNat < 0xD000 → ∃ t, exec (.mrd a) s = .next t ∧
      OnlyAnswers ((s.readByte ⟨0, BitVec.ofNat 12 (a.toNat - 0xC000)⟩).setWidth 16) s t) ∧
    (0xD000 ≤ a.toNat → a.toNat < 0xE000 → ∃ t, exec (.mrd a) s = .next t ∧
      OnlyAnswers ((s.readByte ⟨s.sel, BitVec.ofNat 12 (a.toNat - 0xD000)⟩).setWidth 16) s t) ∧
    (a.toNat < 0xC000 ∨ 0xE000 ≤ a.toNat → ∃ t, exec (.mrd a) s = .next t ∧
      OnlyFaults (.outOfRange (0x8#4 ++ 0#4 ++ a ++ 0#8) a) s t)

/-- R92, whole: the byte MRD would read is `d8`, and no other byte of any bank changes; outside the window nothing is
written. The premise on the byte's new value is the memory's canonical form, which every step keeps
(`StepKeepsTheInvariant`). -/
def Obligations.MwrStoresTheResolvedByte : Prop :=
  (∀ (a : Addr) (d8 : Byte), decode (0x9#4 ++ 0#4 ++ a ++ d8) = .ok (.mwr a d8)) ∧
  ∀ (a : Addr) (d8 : Byte) (s : State),
    (0xC000 ≤ a.toNat → a.toNat < 0xD000 → ∃ t, exec (.mwr a d8) s = .next t ∧
      OnlyStoresAt ⟨0, BitVec.ofNat 12 (a.toNat - 0xC000)⟩ s t ∧
      (Memory.wf s.mem → t.readByte ⟨0, BitVec.ofNat 12 (a.toNat - 0xC000)⟩ = d8)) ∧
    (0xD000 ≤ a.toNat → a.toNat < 0xE000 → ∃ t, exec (.mwr a d8) s = .next t ∧
      OnlyStoresAt ⟨s.sel, BitVec.ofNat 12 (a.toNat - 0xD000)⟩ s t ∧
      (Memory.wf s.mem → t.readByte ⟨s.sel, BitVec.ofNat 12 (a.toNat - 0xD000)⟩ = d8)) ∧
    (a.toNat < 0xC000 ∨ 0xE000 ≤ a.toNat → ∃ t, exec (.mwr a d8) s = .next t ∧
      OnlyFaults (.outOfRange (0x9#4 ++ 0#4 ++ a ++ d8) a) s t)

/-- The frame of MWR through the resolution it uses: every byte but the one `resolve` names reads as before, and so does
every window address that does not resolve to it. -/
def Obligations.MwrFrameThroughResolution : Prop :=
  ∀ (a : Addr) (d8 : Byte) (s : State),
    (∀ p, s.resolve a = some p → ∃ t, exec (.mwr a d8) s = .next t ∧ (∀ q, q ≠ p → t.readByte q = s.readByte q) ∧
      ∀ b, s.resolve b ≠ some p → t.memRead b = s.memRead b) ∧
    (s.resolve a = none → ∃ t, exec (.mwr a d8) s = .next t ∧ (∀ q, t.readByte q = s.readByte q) ∧
      ∀ b, t.memRead b = s.memRead b)

/-- The source's bank round trip (S3): for every address of the window, whatever is selected, a byte written is the byte
read. The premise is the memory's canonical form. -/
def Obligations.BankWriteThenReadRoundTrips : Prop :=
  ∀ (a : Addr) (x : Byte) (s : State), Memory.wf s.mem → inWindow a = true →
    ∃ t u, exec (.mwr a x) s = .next t ∧ exec (.mrd a) t = .next u ∧ u.resp = some ⟨.ok, x.setWidth 16⟩

/-- R43, whole: a write to one byte changes no other, a change of `sel` changes none, a byte written in the fixed half
outlives any CWR (S4), and a byte written in one switchable bank is not seen in another (S5). -/
def Obligations.BanksAreIndependent : Prop :=
  (∀ (a : Addr) (d8 : Byte) (s t : State) (p q : Place), s.resolve a = some p → q ≠ p →
    exec (.mwr a d8) s = .next t → t.readByte q = s.readByte q) ∧
  (∀ (v : Byte) (s : State), ∃ t, exec (.cwr v) s = .next t ∧ SameBytes s t) ∧
  (∀ (a : Addr) (x v : Byte) (s : State), Memory.wf s.mem → 0xC000 ≤ a.toNat → a.toNat < 0xD000 →
    ∃ t u w, exec (.mwr a x) s = .next t ∧ exec (.cwr v) t = .next u ∧ exec (.mrd a) u = .next w ∧
      w.resp = some ⟨.ok, x.setWidth 16⟩) ∧
  (∀ (a : Addr) (x v : Byte) (s : State), 0xD000 ≤ a.toNat → a.toNat < 0xE000 → selOf v ≠ s.sel →
    ∃ t u w, exec (.mwr a x) s = .next t ∧ exec (.cwr v) t = .next u ∧ exec (.mrd a) u = .next w ∧
      w.resp = some ⟨.ok, (s.readByte ⟨selOf v, BitVec.ofNat 12 (a.toNat - 0xD000)⟩).setWidth 16⟩)

/-- R11, whole: this hardware's window is 0xC000 to 0xDFFF, and a legal base is one at which 0xD010, the source's
example, lies in the switchable half. -/
def Obligations.WindowStartIsLegalExactlyForTheExample : Prop :=
  (∀ a : Addr, inWindow a = true ↔ 0xC000 ≤ a.toNat ∧ a.toNat ≤ 0xDFFF) ∧ Config.LegalWindowStart Config.windowStart ∧
  ∀ (ws : Nat) (sel : BankNo), sel ≠ 0 → ws + 0x2000 ≤ 0x10000 →
    (Config.LegalWindowStart ws ↔ ∃ o, resolveAt ws sel 0xD010 = some ⟨sel, o⟩)

/-- The spec's own inference R42, for every legal base of the window: a byte of bank 0 and of the selected bank is reached
at exactly one address, and a byte of any other bank at none. -/
def Obligations.EveryReachableByteHasOneAddress : Prop :=
  ∀ (ws : Nat) (sel : BankNo) (p : Place), Config.LegalWindowStart ws → sel ≠ 0 →
    (p.bank = 0 ∨ p.bank = sel → ∃ a, resolveAt ws sel a = some p ∧ ∀ b, resolveAt ws sel b = some p → b = a) ∧
    (p.bank ≠ 0 → p.bank ≠ sel → ∀ a, resolveAt ws sel a ≠ some p)

/-- The spec's own inference R42: no step changes a byte of a switchable bank that is not selected. -/
def Obligations.UnselectedBanksKeepTheirBytes : Prop :=
  ∀ (s t : State) (p : Place), step s = .next t → p.bank ≠ 0 → p.bank ≠ s.sel → t.readByte p = s.readByte p

/-! ### Control commands (43_control_ops.md) -/

/-- R95, whole: `0x00F8 | sel`, one of 0xF9 to 0xFF while `sel` is not 0. -/
def Obligations.CrdAnswersTheControlRegister : Prop :=
  decode (0xA#4 ++ 0#28) = .ok .crd ∧
  (∀ s : State, ∃ t, exec .crd s = .next t ∧ OnlyAnswers (0x00F8#16 ||| s.sel.setWidth 16) s t) ∧
  ∀ s : State, s.sel ≠ 0 → ∃ t v, exec .crd s = .next t ∧ t.resp = some ⟨.ok, v⟩ ∧ 0xF9 ≤ v.toNat ∧ v.toNat ≤ 0xFF

/-- R96, whole: the low three bits are the new index, 0 coerced to 1, and nothing else changes. -/
def Obligations.CwrSelectsTheMaskedBank : Prop :=
  (∀ d8 : Byte, decode (0xB#4 ++ 0#20 ++ d8) = .ok (.cwr d8)) ∧
  (∀ (d8 : Byte) (s : State), ∃ t, exec (.cwr d8) s = .next t ∧
    OnlySelects (if d8.toNat % 8 = 0 then 1 else BitVec.ofNat 3 (d8.toNat % 8)) s t) ∧
  ∀ s t : State, step s = .next t → t.sel ≠ s.sel →
    ∃ cmd rest d8, s.pending = cmd :: rest ∧ decode cmd = .ok (.cwr d8)

/-- The spec's own inference R97, with the masking of R96: bytes that agree in their low three bits select alike, and CWR 0
and CWR 1 both leave a control register that reads 0xF9. -/
def Obligations.ControlWriteIsMaskedAndCoerced : Prop :=
  (∀ (d e : Byte) (s : State), d.toNat % 8 = e.toNat % 8 → exec (.cwr d) s = exec (.cwr e) s) ∧
  ∀ (d : Byte) (s : State), d.toNat % 8 ≤ 1 →
    ∃ t u, exec (.cwr d) s = .next t ∧ exec .crd t = .next u ∧ u.resp = some ⟨.ok, 0x00F9⟩

/-- The spec's own inference R124: the very next memory command, MRD or MWR, of the switchable half sees the bank that CWR
selected. The premise on the stored byte's new value is the memory's canonical form. -/
def Obligations.BankSelectTakesEffectAtOnce : Prop :=
  ∀ (d : Byte) (a : Addr) (s : State) (p : Place), 0xD000 ≤ a.toNat → a.toNat < 0xE000 →
    p = ⟨if d.toNat % 8 = 0 then 1 else BitVec.ofNat 3 (d.toNat % 8), BitVec.ofNat 12 (a.toNat - 0xD000)⟩ →
    ∃ t, exec (.cwr d) s = .next t ∧ SameBytes s t ∧
      (∃ u, exec (.mrd a) t = .next u ∧ OnlyAnswers ((s.readByte p).setWidth 16) t u) ∧
      ∀ x : Byte, ∃ u, exec (.mwr a x) t = .next u ∧ OnlyStoresAt p t u ∧ (Memory.wf s.mem → u.readByte p = x)

/-- The spec's own inference R98: in a run whose issuer presents no CWR, from a state with bank 1 selected, bank 1 stays
the one in the switchable half; and an issuer that keeps R122 in legacy mode has such a run, without a fault. -/
def Obligations.WithoutCwrBankOneStaysMapped : Prop :=
  (∀ (n : Nat) (s t : State), s.sel = 1 → (∀ cmd ∈ s.pending, ∀ d, decode cmd ≠ .ok (.cwr d)) →
    Sys2Proof.core.run n s = .next t →
    t.sel = 1 ∧ ∀ a : Addr, 0xD000 ≤ a.toNat → a.toNat < 0xE000 →
      t.resolve a = some ⟨1, BitVec.ofNat 12 (a.toNat - 0xD000)⟩) ∧
  ∀ s : State, s.sel = 1 → s.faultRec = none → (∀ cmd ∈ s.pending, CorrectIn .legacy cmd) →
    ∃ t, RunsSafely s.pending.length s t ∧ t.pending = [] ∧ t.sel = 1

/-! ### Encoding (30_encoding.md) -/

/-- Words written out from the tables of R62 to R65, one of each family, decode to the command they stand for. -/
def Obligations.WrittenOutWordsDecode : Prop :=
  decode 0b0000_0011_0000_0000_0000_0000_0000_0000 = .ok (.rd16 .hl) ∧
  decode 0b0001_0001_0000_0000_0001_0010_0011_0100 = .ok (.wr16 .bc 0x1234) ∧
  decode 0b0011_0011_0000_0000_0000_0000_1010_1011 = .ok (.wrh .hl 0xAB) ∧
  decode 0b0111_0111_0000_0000_0000_0000_0000_0001 = .ok (.setf .z true) ∧
  decode 0b1001_0000_1101_0000_0001_0000_0000_0111 = .ok (.mwr 0xD010 0x07) ∧
  decode 0b1011_0000_0000_0000_0000_0000_1111_0101 = .ok (.cwr 0xF5)

/-- Decode and encode agree: every command, with every value of every operand, is what its word decodes to; the word of a
lane command of SP or PC is refused for its selector. -/
def Obligations.DecodeOfEncode : Prop :=
  ∀ i : Instr, (i.WellFormed → decode (encode i) = .ok i) ∧ (¬ i.WellFormed → decode (encode i) = .error .selector)

/-- Each command has one word: a word that decodes is the encoding of the command it decodes to, which is well-formed. -/
def Obligations.EncodeOfDecode : Prop :=
  ∀ (cmd : Command) (i : Instr), decode cmd = .ok i → encode i = cmd ∧ i.WellFormed

/-- R64 and R65, whole: the selector values; and that each whole-view, lane and flag command takes exactly the values of its
table, each naming its table's register or flag, while every other value is refused. -/
def Obligations.SelectorTables : Prop :=
  (Reg.selector .af = 0 ∧ Reg.selector .bc = 1 ∧ Reg.selector .de = 2 ∧ Reg.selector .hl = 3 ∧
    Reg.selector .sp = 4 ∧ Reg.selector .pc = 5) ∧
  (Flag.selector .z = 7 ∧ Flag.selector .n = 6 ∧ Flag.selector .h = 5 ∧ Flag.selector .c = 4) ∧
  (∀ (sf : Selector) (p : Reg), (Reg.ofSelector sf = some p ↔ p.selector = sf) ∧
    (Reg.pairOfSelector sf = some p ↔ p.selector = sf ∧ sf.toNat ≤ 3)) ∧
  (∀ (sf : Selector) (f : Flag), Flag.ofSelector sf = some f ↔ f.selector = sf) ∧
  (∀ (sf : Selector) (d16 : Word),
    (∀ p, decode (0x0#4 ++ sf ++ 0#24) = .ok (.rd16 p) ↔ p.selector = sf) ∧
    (∀ p, decode (0x1#4 ++ sf ++ 0#8 ++ d16) = .ok (.wr16 p d16) ↔ p.selector = sf) ∧
    (5 < sf.toNat → decode (0x0#4 ++ sf ++ 0#24) = .error .selector ∧
      decode (0x1#4 ++ sf ++ 0#8 ++ d16) = .error .selector)) ∧
  (∀ (sf : Selector) (d8 : Byte),
    (∀ p, decode (0x2#4 ++ sf ++ 0#24) = .ok (.rdh p) ↔ p.selector = sf ∧ sf.toNat ≤ 3) ∧
    (∀ p, decode (0x3#4 ++ sf ++ 0#16 ++ d8) = .ok (.wrh p d8) ↔ p.selector = sf ∧ sf.toNat ≤ 3) ∧
    (∀ p, decode (0x4#4 ++ sf ++ 0#24) = .ok (.rdl p) ↔ p.selector = sf ∧ sf.toNat ≤ 3) ∧
    (∀ p, decode (0x5#4 ++ sf ++ 0#16 ++ d8) = .ok (.wrl p d8) ↔ p.selector = sf ∧ sf.toNat ≤ 3) ∧
    (3 < sf.toNat → decode (0x2#4 ++ sf ++ 0#24) = .error .selector ∧
      decode (0x3#4 ++ sf ++ 0#16 ++ d8) = .error .selector ∧ decode (0x4#4 ++ sf ++ 0#24) = .error .selector ∧
      decode (0x5#4 ++ sf ++ 0#16 ++ d8) = .error .selector)) ∧
  (∀ (sf : Selector) (v : Bool),
    (∀ f, decode (0x6#4 ++ sf ++ 0#24) = .ok (.getf f) ↔ f.selector = sf) ∧
    (∀ f, decode (0x7#4 ++ sf ++ 0#23 ++ BitVec.ofBool v) = .ok (.setf f v) ↔ f.selector = sf) ∧
    (sf.toNat < 4 ∨ 7 < sf.toNat → decode (0x6#4 ++ sf ++ 0#24) = .error .selector ∧
      decode (0x7#4 ++ sf ++ 0#23 ++ BitVec.ofBool v) = .error .selector))

/-- R66, whole: an illegal selector makes any word of its operation illegal. -/
def Obligations.IllegalSelectorsAreRefused : Prop :=
  ∀ cmd : Command,
    ((cmd.extractLsb' 28 4 = 0x0#4 ∨ cmd.extractLsb' 28 4 = 0x1#4) → 5 < (cmd.extractLsb' 24 4).toNat →
      ∃ e, decode cmd = .error e) ∧
    ((cmd.extractLsb' 28 4 = 0x2#4 ∨ cmd.extractLsb' 28 4 = 0x3#4 ∨ cmd.extractLsb' 28 4 = 0x4#4 ∨
        cmd.extractLsb' 28 4 = 0x5#4) → 3 < (cmd.extractLsb' 24 4).toNat → ∃ e, decode cmd = .error e) ∧
    ((cmd.extractLsb' 28 4 = 0x6#4 ∨ cmd.extractLsb' 28 4 = 0x7#4) →
      ((cmd.extractLsb' 24 4).toNat < 4 ∨ 7 < (cmd.extractLsb' 24 4).toNat) → ∃ e, decode cmd = .error e)

/-- R67, whole: a 1 in any bit that the format of R62 marks `0` makes the word illegal. -/
def Obligations.MustBeZeroBitsAreRefused : Prop :=
  ∀ cmd : Command,
    ((cmd.extractLsb' 28 4 = 0x0#4 ∨ cmd.extractLsb' 28 4 = 0x2#4 ∨ cmd.extractLsb' 28 4 = 0x4#4 ∨
        cmd.extractLsb' 28 4 = 0x6#4) → cmd.extractLsb' 0 24 ≠ 0 → decode cmd = .error .mustBeZero) ∧
    (cmd.extractLsb' 28 4 = 0x1#4 → cmd.extractLsb' 16 8 ≠ 0 → decode cmd = .error .mustBeZero) ∧
    ((cmd.extractLsb' 28 4 = 0x3#4 ∨ cmd.extractLsb' 28 4 = 0x5#4) → cmd.extractLsb' 8 16 ≠ 0 →
      decode cmd = .error .mustBeZero) ∧
    (cmd.extractLsb' 28 4 = 0x7#4 → cmd.extractLsb' 1 23 ≠ 0 → decode cmd = .error .mustBeZero) ∧
    (cmd.extractLsb' 28 4 = 0x8#4 → cmd.extractLsb' 24 4 ≠ 0 ∨ cmd.extractLsb' 0 8 ≠ 0 →
      decode cmd = .error .mustBeZero) ∧
    (cmd.extractLsb' 28 4 = 0x9#4 → cmd.extractLsb' 24 4 ≠ 0 → decode cmd = .error .mustBeZero) ∧
    (cmd.extractLsb' 28 4 = 0xA#4 → cmd.extractLsb' 0 28 ≠ 0 → decode cmd = .error .mustBeZero) ∧
    (cmd.extractLsb' 28 4 = 0xB#4 → cmd.extractLsb' 8 20 ≠ 0 → decode cmd = .error .mustBeZero)

/-- R68, whole: op 0xC to 0xF is illegal. -/
def Obligations.ReservedOperationsAreRefused : Prop :=
  ∀ cmd : Command, 0xC ≤ (cmd.extractLsb' 28 4).toNat → decode cmd = .error .reservedOperation

/-- At most one row of the opcode table matches a word (a sentence of R69). -/
def Obligations.AtMostOneRowMatches : Prop :=
  ∀ cmd : Command, ∀ r ∈ opcodeTable, ∀ r' ∈ opcodeTable,
    r.matchesWord cmd = true → r'.matchesWord cmd = true → r = r'

/-- The twelve forms of R73: the line of each, with any register or flag name it takes and any number that fits, assembles to
the word of its command; a number that does not fit, and a lane of SP or PC, make the assembler refuse the line. What it
accepts is always a command. The spaces of these lines are those of R73's examples (layout: log entry 6). -/
def Obligations.AssembledLinesAreCommands : Prop :=
  (∀ (line : String) (cmd : Command), assemble line = some cmd → ∃ i, decode cmd = .ok i ∧ encode i = cmd) ∧
  (∀ (w : Nat) (cs : List Char) (v : BitVec w), immediate w cs = some v ↔ parseNumber cs = some v.toNat) ∧
  (∀ p : Reg, assemble ("RD16 " ++ p.name) = some (encode (.rd16 p)) ∧
    assemble ("RDH " ++ p.name) = (if p.isPair then some (encode (.rdh p)) else none) ∧
    assemble ("RDL " ++ p.name) = (if p.isPair then some (encode (.rdl p)) else none)) ∧
  (∀ f : Flag, assemble ("GETF " ++ f.name) = some (encode (.getf f))) ∧
  assemble "CRD" = some (encode .crd) ∧
  (∀ (x : String) (n : Nat), parseNumber x.toList = some n →
    (∀ p : Reg, assemble ("WR16 " ++ p.name ++ ", " ++ x) =
        (if n < 0x10000 then some (encode (.wr16 p (BitVec.ofNat 16 n))) else none) ∧
      assemble ("WRH " ++ p.name ++ ", " ++ x) =
        (if p.isPair ∧ n < 0x100 then some (encode (.wrh p (BitVec.ofNat 8 n))) else none) ∧
      assemble ("WRL " ++ p.name ++ ", " ++ x) =
        (if p.isPair ∧ n < 0x100 then some (encode (.wrl p (BitVec.ofNat 8 n))) else none)) ∧
    (∀ f : Flag, assemble ("SETF " ++ f.name ++ ", " ++ x) =
      (if n < 2 then some (encode (.setf f (n == 1))) else none)) ∧
    assemble ("MRD " ++ x) = (if n < 0x10000 then some (encode (.mrd (BitVec.ofNat 16 n))) else none) ∧
    assemble ("CWR " ++ x) = (if n < 0x100 then some (encode (.cwr (BitVec.ofNat 8 n))) else none)) ∧
  ∀ (x y : String) (n m : Nat), parseNumber x.toList = some n → parseNumber y.toList = some m →
    assemble ("MWR " ++ x ++ ", " ++ y) =
      (if n < 0x10000 ∧ m < 0x100 then some (encode (.mwr (BitVec.ofNat 16 n) (BitVec.ofNat 8 m))) else none)

/-! ### Reset (10_state.md, 70_reset_and_hazards.md) -/

/-- R36 and R37, whole: the values the spec gives at reset. -/
def Obligations.ResetLeavesAllZeroAndBankOne : Prop :=
  (∀ q, State.reset.readReg q = 0x0000) ∧ (∀ f, State.reset.getFlag f = false) ∧ State.reset.reservedNibble = 0 ∧
  (∀ p, State.reset.readByte p = 0x00) ∧ State.reset.sel = 1

/-- The spec's own inference R117: what the read commands answer right after reset. -/
def Obligations.ReadsRightAfterReset : Prop :=
  State.reset.faultRec = none ∧
  (∀ p, ∃ t, exec (.rd16 p) State.reset = .next t ∧ t.resp = some ⟨.ok, 0x0000⟩) ∧
  (∀ f, ∃ t, exec (.getf f) State.reset = .next t ∧ t.resp = some ⟨.ok, 0x0000⟩) ∧
  (∀ a, inWindow a = true → ∃ t, exec (.mrd a) State.reset = .next t ∧ t.resp = some ⟨.ok, 0x0000⟩) ∧
  (∃ t, exec .crd State.reset = .next t ∧ t.resp = some ⟨.ok, 0x00F9⟩)

/-! ### The step, faults and responses (30_encoding.md, 60_exceptions.md) -/

/-- A step runs the command the next word decodes to, at the state in which that word is no longer waiting; and with
`withFetchWord` the word given is that next word. A step with no word waiting holds the state (log entry 3). -/
def Obligations.StepRunsTheDecodedCommand : Prop :=
  (∀ (s : State) (cmd : Command) (rest : List Command) (i : Instr), s.faultRec = none → s.pending = cmd :: rest →
    decode cmd = .ok i → step s = exec i (s.setPending rest)) ∧
  (∀ (s : State) (w : Nat) (i : Instr), s.faultRec = none → decodeTableWord 32 w = some i →
    step (s.withFetchWord 32 w) = exec i s) ∧
  ∀ s : State, s.faultRec = none → s.pending = [] → step s = .next s

/-- R101, whole: a word that decoding refuses takes the IllegalCommand fault, status 2, and the record holds the word. -/
def Obligations.IllegalWordsTakeTheFault : Prop :=
  ∀ (s : State) (cmd : Command) (rest : List Command), s.faultRec = none → s.pending = cmd :: rest →
    (∀ i, decode cmd ≠ .ok i) →
    (∃ t a, step s = .next t ∧ OnlyFaults (.illegalCommand cmd) (s.setPending rest) t ∧
      t.resp = some a ∧ a.status.code = 2 ∧ a.rdata = 0x0000)

/-- R100, whole: MRD and MWR outside the window take the OutOfRange fault, status 1, with the word presented and the
address in the record; and a step of a running block records OutOfRange only so. -/
def Obligations.OutOfRangeAddressesTakeTheFault : Prop :=
  (∀ (s : State) (cmd : Command) (rest : List Command) (i : Instr) (a : Addr), s.faultRec = none →
    s.pending = cmd :: rest → decode cmd = .ok i → i.address = some a → (a.toNat < 0xC000 ∨ 0xE000 ≤ a.toNat) →
    ∃ t r, step s = .next t ∧ OnlyFaults (.outOfRange cmd a) (s.setPending rest) t ∧
      t.resp = some r ∧ r.status.code = 1 ∧ r.rdata = 0x0000) ∧
  ∀ (s t : State) (cmd : Command) (a : Addr), s.faultRec = none → step s = .next t →
    t.faultRec = some (.outOfRange cmd a) →
    ∃ rest, s.pending = cmd :: rest ∧ (decode cmd = .ok (.mrd a) ∨ ∃ d, decode cmd = .ok (.mwr a d)) ∧
      (a.toNat < 0xC000 ∨ 0xE000 ≤ a.toNat)

/-- R103, whole: decoding comes first. A word that is no command is recorded as illegal whatever address its a16 field
holds, and one fault is reported for one command. -/
def Obligations.DecodingComesBeforeTheRangeCheck : Prop :=
  ∀ (s t : State) (cmd : Command) (rest : List Command), s.faultRec = none → s.pending = cmd :: rest → step s = .next t →
    ((∀ i, decode cmd ≠ .ok i) → t.faultRec = some (.illegalCommand cmd)) ∧
    ((∃ i, decode cmd = .ok i) → t.faultRec ≠ some (.illegalCommand cmd)) ∧
    (∀ a, t.faultRec = some (.outOfRange cmd a) → ∃ i, decode cmd = .ok i ∧ i.address = some a)

/-- R102, whole: a running block always has a next state, and a fault comes of an illegal word or of an address outside
the window and of nothing else. -/
def Obligations.NoOtherFaultExists : Prop :=
  (∀ s : State, s.faultRec = none → ∃ t, step s = .next t) ∧
  ∀ s t : State, s.faultRec = none → step s = .next t →
    t.faultRec = none ∨ ∃ cmd rest, s.pending = cmd :: rest ∧ ¬ Correct cmd

/-- R105, whole: no command clears a fault record, and a faulted block never steps again, however long it is run. -/
def Obligations.FaultedBlockNeverResumes : Prop :=
  (∀ (i : Instr) (s t : State), exec i s = .next t → s.faultRec ≠ none → t.faultRec ≠ none) ∧
  ∀ (n : Nat) (s : State) (r : FaultRecord), s.faultRec = some r →
    Sys2Proof.core.run (n + 1) s = .fault (.blockStopped r)

/-- R104, whole: faults are precise. The commands before the first bad one all complete; that one has no effect but its
response and its record; and the block accepts nothing more, the rest of the issuer's words still waiting. -/
def Obligations.FaultsArePrecise : Prop :=
  ∀ (good : List Command) (bad : Command) (rest : List Command) (s : State), s.faultRec = none →
    s.pending = good ++ bad :: rest → (∀ cmd ∈ good, Correct cmd) → ¬ Correct bad →
    ∃ u t r, RunsSafely good.length s u ∧ u.pending = bad :: rest ∧
      Sys2Proof.core.run (good.length + 1) s = .next t ∧ OnlyFaults r (u.setPending rest) t ∧ r.cmd = bad ∧ r.Genuine ∧
      Sys2Proof.core.run (good.length + 2) s = .fault (.blockStopped r)

/-- R60: every command a running block accepts is answered in its step, with status 0, 1 or 2, and with data 0x0000 for
every write command and every fault; the data of the reads stand in their own statements. -/
def Obligations.EveryCommandIsAnsweredInItsStep : Prop :=
  (Status.ok.code = 0 ∧ Status.outOfRange.code = 1 ∧ Status.illegalCommand.code = 2 ∧ ∀ st : Status, st.code ≠ 3) ∧
  ∀ (s : State) (cmd : Command) (rest : List Command), s.faultRec = none → s.pending = cmd :: rest →
    ∃ t a, step s = .next t ∧ t.pending = rest ∧ t.resp = some a ∧ (a.status = .ok ↔ t.faultRec = none) ∧
      (a.status ≠ .ok → a.rdata = 0x0000) ∧
      (∀ i, decode cmd = .ok i → i.isWrite = true → a.rdata = 0x0000)

/-- R50: a read changes nothing but the response; any command done twice is as if done once; writing what is there
changes nothing but the response. -/
def Obligations.ReadsAreSilentAndWritesIdempotent : Prop :=
  (∀ (i : Instr) (s t : State) (v : Word), i.isWrite = false → exec i s = .next t → t.resp = some ⟨.ok, v⟩ →
    t = s.respond v) ∧
  (∀ (i : Instr) (s t : State), Memory.wf s.mem → exec i s = .next t → exec i t = .next t) ∧
  (∀ (p : Reg) (s : State), exec (.wr16 p (s.readReg p)) s = .next (s.respond 0x0000)) ∧
  (∀ (p : Reg) (s : State), p.isPair = true → exec (.wrh p (s.readHi p)) s = .next (s.respond 0x0000) ∧
    exec (.wrl p (s.readLo p)) s = .next (s.respond 0x0000)) ∧
  (∀ (f : Flag) (s : State), exec (.setf f (s.getFlag f)) s = .next (s.respond 0x0000)) ∧
  (∀ (a : Addr) (v : Byte) (s : State), Memory.wf s.mem → s.memRead a = some v →
    exec (.mwr a v) s = .next (s.respond 0x0000)) ∧
  ∀ s : State, s.sel ≠ 0 → exec (.cwr (s.sel.setWidth 8)) s = .next (s.respond 0x0000)

/-! ### The whole machine -/

/-- The invariant holds at reset, with no fault record (R115) and no response. That there is no response yet is the model's choice
(log entry 2), and so is the form the invariant asks of the memory's list (log entry 4). -/
def Obligations.ResetMeetsTheInvariant : Prop :=
  Inv State.reset ∧ State.reset.faultRec = none ∧ State.reset.resp = none

/-- Every step keeps the invariant: the memory in its canonical form, a bank-select index that is never 0, fault records
that are genuine and reported, and no status but OK without one. -/
def Obligations.StepKeepsTheInvariant : Prop :=
  ∀ s t : State, Inv s → step s = .next t → Inv t

/-- R30, whole: after any CWR the index is in 1..7, no other command moves it, and so no step leaves it 0 that did not find
it 0. -/
def Obligations.SelectedBankIsNeverZero : Prop :=
  (∀ (d : Byte) (s : State), ∃ t, exec (.cwr d) s = .next t ∧ 1 ≤ t.sel.toNat ∧ t.sel.toNat ≤ 7) ∧
  (∀ (i : Instr) (s t : State), (∀ d, i ≠ .cwr d) → exec i s = .next t → t.sel = s.sel) ∧
  (∀ s t : State, s.sel ≠ 0 → step s = .next t → t.sel ≠ 0)

/-- States that meet the invariant and agree on everything a command can observe are one state: the model holds no hidden
state (R33) beside the way it lists memory (log entry 4). -/
def Obligations.NoHiddenState : Prop :=
  ∀ s t : State, Inv s → Inv t → SameRegs s t → SameBytes s t → t.sel = s.sel → t.resp = s.resp →
    t.faultRec = s.faultRec → t.pending = s.pending → t = s

/-- A correct issuer never sees a fault: if every word it presents decodes and names no address outside the window, all
are accepted, one a step, and the last is answered OK. -/
def Obligations.CorrectIssuerRunsToTheEnd : Prop :=
  ∀ (cmds : List Command) (s : State), s.faultRec = none → s.pending = cmds → (∀ cmd ∈ cmds, Correct cmd) →
    ∃ t, RunsSafely cmds.length s t ∧ t.pending = [] ∧ (cmds ≠ [] → ∃ v, t.resp = some ⟨.ok, v⟩)

/-- Sequential consistency of one issuer (R53): after a run of commands from any state, every bank byte, every register and
`sel` hold what the last write to them left, or what they held before it if there was none; and a further read command,
MRD, RD16, RDH, RDL, GETF or CRD, answers what is last written in that sense. The premise on the memory is its canonical form. -/
def Obligations.EveryReadSeesTheLastWrite : Prop :=
  ∀ (is : List Instr) (s : State), Memory.wf s.mem → s.faultRec = none → s.pending = is.map encode →
    (∀ i ∈ is, i.WellFormed ∧ i.inContract = true) →
    ∃ t, RunsSafely is.length s t ∧ (∀ p, t.readByte p = byteAfterAll p s.sel (s.readByte p) is) ∧
      (∀ q, t.readReg q = regAfterAll q (s.readReg q) is) ∧ t.sel = selAfterAll s.sel is ∧
      (∀ (a : Addr) (p : Place), resolveAt Config.windowStart (selAfterAll s.sel is) a = some p →
        ∃ u, exec (.mrd a) t = .next u ∧
          u.resp = some ⟨.ok, (byteAfterAll p s.sel (s.readByte p) is).setWidth 16⟩) ∧
      (∀ q, ∃ u, exec (.rd16 q) t = .next u ∧ u.resp = some ⟨.ok, regAfterAll q (s.readReg q) is⟩) ∧
      (∀ q, q.isPair = true → ∃ u, exec (.rdh q) t = .next u ∧
        u.resp = some ⟨.ok, regAfterAll q (s.readReg q) is >>> 8⟩) ∧
      (∀ q, q.isPair = true → ∃ u, exec (.rdl q) t = .next u ∧
        u.resp = some ⟨.ok, regAfterAll q (s.readReg q) is &&& 0x00FF#16⟩) ∧
      (∀ f : Flag, ∃ u, exec (.getf f) t = .next u ∧ u.resp = some ⟨.ok,
        if (regAfterAll .af (s.readReg .af) is).getLsbD f.bit then 0x0001 else 0x0000⟩) ∧
      ∃ u, exec .crd t = .next u ∧ u.resp = some ⟨.ok, 0x00F8#16 ||| (selAfterAll s.sel is).setWidth 16⟩

/-- The register file does not see the banked memory (R2): two blocks with the same registers, whatever their banks and
`sel`, given the same register and flag commands, answer alike and keep the same registers; neither run touches a bank. -/
def Obligations.RegisterFileIgnoresBankedMemory : Prop :=
  ∀ (n : Nat) (s u : State), SameRegs s u → s.pending = u.pending → s.faultRec = u.faultRec → s.resp = u.resp →
    (∀ cmd ∈ s.pending, ∀ i, decode cmd = .ok i → i.ofRegisterFile = true) →
    (∃ t v, Sys2Proof.core.run n s = .next t ∧ Sys2Proof.core.run n u = .next v ∧ SameRegs t v ∧ t.resp = v.resp ∧
      SameBytes s t ∧ SameBytes u v ∧ t.sel = s.sel ∧ v.sel = u.sel) ∨
    (∃ r, Sys2Proof.core.run n s = .fault (.blockStopped r) ∧ Sys2Proof.core.run n u = .fault (.blockStopped r))

/-- The banked memory does not see the register file (R2): two blocks with the same memory and `sel`, whatever their
registers, given the same memory and control commands, answer alike and keep the same memory and `sel`; neither run
touches a register. -/
def Obligations.BankedMemoryIgnoresRegisterFile : Prop :=
  ∀ (n : Nat) (s u : State), s.mem = u.mem → s.sel = u.sel → s.pending = u.pending → s.faultRec = u.faultRec →
    s.resp = u.resp → (∀ cmd ∈ s.pending, ∀ i, decode cmd = .ok i → i.ofRegisterFile = false) →
    (∃ t v, Sys2Proof.core.run n s = .next t ∧ Sys2Proof.core.run n u = .next v ∧ t.mem = v.mem ∧ t.sel = v.sel ∧
      t.resp = v.resp ∧ SameRegs s t ∧ SameRegs u v) ∨
    (∃ r, Sys2Proof.core.run n s = .fault (.blockStopped r) ∧ Sys2Proof.core.run n u = .fault (.blockStopped r))

/-! ### Statements about the model's own choices -/

/-- A lane command of SP or PC, which no word decodes to. The fault of its word is the spec's (R66, R101); that the meaning,
applied to such syntax, takes that same fault is the model's choice (log entry 9), and it is what a step does with the word. -/
def Obligations.LaneCommandsOfSpAndPcTakeTheFault : Prop :=
  (∀ (p : Reg) (s : State), p.isPair = false →
    (∃ t, exec (.rdh p) s = .next t ∧ OnlyFaults (.illegalCommand (0x2#4 ++ p.selector ++ 0#24)) s t) ∧
    (∃ t, exec (.rdl p) s = .next t ∧ OnlyFaults (.illegalCommand (0x4#4 ++ p.selector ++ 0#24)) s t) ∧
    ∀ d8 : Byte,
      (∃ t, exec (.wrh p d8) s = .next t ∧ OnlyFaults (.illegalCommand (0x3#4 ++ p.selector ++ 0#16 ++ d8)) s t) ∧
      ∃ t, exec (.wrl p d8) s = .next t ∧ OnlyFaults (.illegalCommand (0x5#4 ++ p.selector ++ 0#16 ++ d8)) s t) ∧
  ∀ (i : Instr) (s : State) (rest : List Command), ¬ i.WellFormed → s.faultRec = none → s.pending = encode i :: rest →
    (∀ cmd, decode cmd ≠ .ok i) ∧ (∃ e, decode (encode i) = .error e) ∧ step s = exec i (s.setPending rest)

/-- A number of R73 is read in its base: the digits of a value, plain in base 10, after `0x` in base 16 and after `0b` in base 2,
are read as that value. (The letter case of these digits is log entry 6.) -/
def Obligations.NumeralsAreReadInTheirBase : Prop :=
  ∀ n : Nat, parseNumber (Nat.toDigits 10 n) = some n ∧ parseNumber ('0' :: 'x' :: Nat.toDigits 16 n) = some n ∧
    parseNumber ('0' :: 'b' :: Nat.toDigits 2 n) = some n
end

