-- ==== Sys2Proof/Laws/Decode.lean ====
section
/-! SUPPORT. Selectors and fields: what a selector names, and which field of a format's word is which (R61, R62). -/

namespace Sys2Proof

/-! ### Selectors -/

@[simp] theorem Reg.ofSelector_selector (p : Reg) : Reg.ofSelector p.selector = some p := by cases p <;> rfl

theorem Reg.ofSelector_eq_some (s : Selector) (p : Reg) (h : Reg.ofSelector s = some p) : s = p.selector := by
  unfold Reg.ofSelector at h
  split at h
  · cases h; assumption
  · split at h
    · cases h; assumption
    · split at h
      · cases h; assumption
      · split at h
        · cases h; assumption
        · split at h
          · cases h; assumption
          · split at h
            · cases h; assumption
            · cases h

@[simp] theorem Reg.pairOfSelector_selector (p : Reg) :
    Reg.pairOfSelector p.selector = if p.isPair then some p else none := by cases p <;> rfl

theorem Reg.pairOfSelector_eq_some (s : Selector) (p : Reg) (h : Reg.pairOfSelector s = some p) :
    s = p.selector ∧ p.isPair = true := by
  rw [Reg.pairOfSelector, Option.filter_eq_some_iff] at h
  exact ⟨Reg.ofSelector_eq_some s p h.1, h.2⟩

@[simp] theorem Flag.ofSelector_selector (f : Flag) : Flag.ofSelector f.selector = some f := by cases f <;> rfl

theorem Flag.ofSelector_eq_some (s : Selector) (f : Flag) (h : Flag.ofSelector s = some f) : s = f.selector := by
  unfold Flag.ofSelector at h
  split at h
  · cases h; assumption
  · split at h
    · cases h; assumption
    · split at h
      · cases h; assumption
      · split at h
        · cases h; assumption
        · cases h

/-! ### Fields of each format's word -/

variable (op : BitVec 4) (s : Selector) (a16 : Addr) (d16 : Word) (d8 : Byte) (v : Bool)

@[simp] theorem opField_formatRR : opField (formatRR op s) = op := by
  ext i hi; simp only [opField, formatRR, BitVec.getElem_extractLsb', BitVec.getLsbD_append]; interval_cases i <;> simp
@[simp] theorem opField_formatRW : opField (formatRW op s d16) = op := by
  ext i hi; simp only [opField, formatRW, BitVec.getElem_extractLsb', BitVec.getLsbD_append]; interval_cases i <;> simp
@[simp] theorem opField_formatRB : opField (formatRB op s d8) = op := by
  ext i hi; simp only [opField, formatRB, BitVec.getElem_extractLsb', BitVec.getLsbD_append]; interval_cases i <;> simp
@[simp] theorem opField_formatFS : opField (formatFS op s v) = op := by
  ext i hi; simp only [opField, formatFS, BitVec.getElem_extractLsb', BitVec.getLsbD_append]; interval_cases i <;> simp
@[simp] theorem opField_formatMR : opField (formatMR op a16) = op := by
  ext i hi; simp only [opField, formatMR, BitVec.getElem_extractLsb', BitVec.getLsbD_append]; interval_cases i <;> simp
@[simp] theorem opField_formatMW : opField (formatMW op a16 d8) = op := by
  ext i hi; simp only [opField, formatMW, BitVec.getElem_extractLsb', BitVec.getLsbD_append]; interval_cases i <;> simp
@[simp] theorem opField_formatCR : opField (formatCR op) = op := by
  ext i hi; simp only [opField, formatCR, BitVec.getElem_extractLsb', BitVec.getLsbD_append]; interval_cases i <;> simp
@[simp] theorem opField_formatCW : opField (formatCW op d8) = op := by
  ext i hi; simp only [opField, formatCW, BitVec.getElem_extractLsb', BitVec.getLsbD_append]; interval_cases i <;> simp

@[simp] theorem sField_formatRR : sField (formatRR op s) = s := by
  ext i hi; simp only [sField, formatRR, BitVec.getElem_extractLsb', BitVec.getLsbD_append]; interval_cases i <;> simp
@[simp] theorem sField_formatRW : sField (formatRW op s d16) = s := by
  ext i hi; simp only [sField, formatRW, BitVec.getElem_extractLsb', BitVec.getLsbD_append]; interval_cases i <;> simp
@[simp] theorem sField_formatRB : sField (formatRB op s d8) = s := by
  ext i hi; simp only [sField, formatRB, BitVec.getElem_extractLsb', BitVec.getLsbD_append]; interval_cases i <;> simp
@[simp] theorem sField_formatFS : sField (formatFS op s v) = s := by
  ext i hi; simp only [sField, formatFS, BitVec.getElem_extractLsb', BitVec.getLsbD_append]; interval_cases i <;> simp

@[simp] theorem d16Field_formatRW : d16Field (formatRW op s d16) = d16 := by
  ext i hi; simp only [d16Field, formatRW, BitVec.getElem_extractLsb', BitVec.getLsbD_append]; interval_cases i <;> simp
@[simp] theorem d8Field_formatRB : d8Field (formatRB op s d8) = d8 := by
  ext i hi; simp only [d8Field, formatRB, BitVec.getElem_extractLsb', BitVec.getLsbD_append]; interval_cases i <;> simp
@[simp] theorem d8Field_formatMW : d8Field (formatMW op a16 d8) = d8 := by
  ext i hi; simp only [d8Field, formatMW, BitVec.getElem_extractLsb', BitVec.getLsbD_append]; interval_cases i <;> simp
@[simp] theorem d8Field_formatCW : d8Field (formatCW op d8) = d8 := by
  ext i hi; simp only [d8Field, formatCW, BitVec.getElem_extractLsb', BitVec.getLsbD_append]; interval_cases i <;> simp
@[simp] theorem a16Field_formatMR : a16Field (formatMR op a16) = a16 := by
  ext i hi; simp only [a16Field, formatMR, BitVec.getElem_extractLsb', BitVec.getLsbD_append]; interval_cases i <;> simp
@[simp] theorem a16Field_formatMW : a16Field (formatMW op a16 d8) = a16 := by
  ext i hi; simp only [a16Field, formatMW, BitVec.getElem_extractLsb', BitVec.getLsbD_append]; interval_cases i <;> simp
@[simp] theorem vField_formatFS : vField (formatFS op s v) = v := by
  simp only [vField, formatFS, BitVec.getLsbD_append]; cases v <;> rfl

end Sys2Proof
end

