-- ==== Sys2Proof/Laws/Assembler.lean ====
section
/-! SUPPORT. How the assembler reads a line (R73): what it takes a line of each shape apart into, and that a number it reads holds
no space and no comma. -/

namespace Sys2Proof.Machine

/-- Text that stands as one word of a line: not empty, no space, no comma. -/
def IsWord (cs : List Char) : Prop := cs ≠ [] ∧ ∀ c ∈ cs, c ≠ ' ' ∧ c ≠ ','

/-! ### Spaces and separators -/

theorem trimLeft_of_head (c : Char) (cs : List Char) (h : c ≠ ' ') : trimLeft (c :: cs) = c :: cs := by
  simp [trimLeft, h]

/-- A text whose first and last characters are no spaces is its own trimming. -/
theorem trim_of_ends (a b : Char) (cs ds : List Char) (ha : a ≠ ' ') (hb : b ≠ ' ') (h : a :: cs = ds ++ [b]) :
    trim (a :: cs) = a :: cs := by
  rw [trim, trimLeft_of_head a cs ha, h, List.reverse_append, List.reverse_singleton, List.singleton_append,
    trimLeft_of_head b _ hb]
  simp

theorem IsWord.last (cs : List Char) (h : IsWord cs) : ∃ ds b, cs = ds ++ [b] ∧ b ≠ ' ' :=
  ⟨cs.dropLast, cs.getLast h.1, (List.dropLast_append_getLast h.1).symm, (h.2 _ (List.getLast_mem h.1)).1⟩

theorem IsWord.head (cs : List Char) (h : IsWord cs) : ∃ a ds, cs = a :: ds ∧ a ≠ ' ' := by
  obtain ⟨hne, hc⟩ := h
  cases cs with
  | nil => exact absurd rfl hne
  | cons a ds => exact ⟨a, ds, rfl, (hc a (by simp)).1⟩

/-- A text that begins with a word and ends with one is its own trimming. -/
theorem trim_of_words (x y mid : List Char) (hx : IsWord x) (hy : IsWord y) : trim (x ++ mid ++ y) = x ++ mid ++ y := by
  obtain ⟨a, as, rfl, ha⟩ := hx.head
  obtain ⟨bs, b, rfl, hb⟩ := hy.last
  exact trim_of_ends a b (as ++ mid ++ (bs ++ [b])) (a :: as ++ mid ++ bs) ha hb (by simp)

theorem trim_word (x : List Char) (hx : IsWord x) : trim x = x := by
  obtain ⟨a, as, rfl, ha⟩ := hx.head
  obtain ⟨bs, b, hb, hb'⟩ := hx.last
  exact trim_of_ends a b as bs ha hb' hb

theorem trim_space_word (x : List Char) (hx : IsWord x) : trim (' ' :: x) = x := by
  have h := trim_word x hx
  simpa [trim, trimLeft] using h

theorem splitAtChar_word (x : List Char) (hx : ∀ c ∈ x, c ≠ ',') : splitAtChar ',' x = [x] := by
  induction x with
  | nil => rfl
  | cons c cs ih =>
    have hc := hx c (by simp)
    simp [splitAtChar, hc, ih (fun d hd => hx d (by simp [hd]))]

theorem splitAtChar_words (x y : List Char) (hx : ∀ c ∈ x, c ≠ ',') (hy : ∀ c ∈ y, c ≠ ',') :
    splitAtChar ',' (x ++ ',' :: y) = [x, y] := by
  induction x with
  | nil => simp [splitAtChar, splitAtChar_word y hy]
  | cons c cs ih =>
    have hc := hx c (by simp)
    simp [splitAtChar, hc, ih (fun d hd => hx d (by simp [hd]))]

theorem IsWord.takeWhile (x rest : List Char) (hx : IsWord x) : (x ++ ' ' :: rest).takeWhile (· ≠ ' ') = x := by
  rw [List.takeWhile_append_of_pos (by simpa using fun c hc => (hx.2 c hc).1)]
  simp

theorem IsWord.dropWhile (x rest : List Char) (hx : IsWord x) : (x ++ ' ' :: rest).dropWhile (· ≠ ' ') = ' ' :: rest := by
  rw [List.dropWhile_append_of_pos (by simpa using fun c hc => (hx.2 c hc).1)]
  simp

/-! ### Lines -/

/-- A line of a mnemonic and one operand. -/
theorem parseChars_one (m x : List Char) (hm : IsWord m) (hx : IsWord x) :
    parseChars (m ++ ' ' :: x) = (mnemonicName m).bind (fun op => parseOperands op [x]) := by
  have ht : trim (m ++ ' ' :: x) = m ++ ' ' :: x := by simpa using trim_of_words m x [' '] hm hx
  have hs : splitAtChar ',' (' ' :: x) = [' ' :: x] :=
    splitAtChar_word _ (by simpa using fun c hc => (hx.2 c hc).2)
  have ho : operandWords (' ' :: x) = [x] := by
    simp [operandWords, trim_space_word x hx, hx.1, hs]
  simp only [parseChars]
  rw [ht, hm.takeWhile, hm.dropWhile, ho]

/-- A line of a mnemonic and two operands. -/
theorem parseChars_two (m x y : List Char) (hm : IsWord m) (hx : IsWord x) (hy : IsWord y) :
    parseChars (m ++ ' ' :: (x ++ ',' :: ' ' :: y)) = (mnemonicName m).bind (fun op => parseOperands op [x, y]) := by
  have ht : trim (m ++ ' ' :: (x ++ ',' :: ' ' :: y)) = m ++ ' ' :: (x ++ ',' :: ' ' :: y) := by
    simpa using trim_of_words m y (' ' :: x ++ [',', ' ']) hm hy
  have hs : splitAtChar ',' (' ' :: (x ++ ',' :: ' ' :: y)) = [' ' :: x, ' ' :: y] :=
    splitAtChar_words (' ' :: x) (' ' :: y) (by simpa using fun c hc => (hx.2 c hc).2)
      (by simpa using fun c hc => (hy.2 c hc).2)
  have hn : trim (' ' :: (x ++ ',' :: ' ' :: y)) ≠ [] := by
    have h := trim_of_words x y [',', ' '] hx hy
    obtain ⟨a, as, rfl, ha⟩ := hx.head
    have : trim (' ' :: (a :: as ++ ',' :: ' ' :: y)) = trim (a :: as ++ [',', ' '] ++ y) := by
      simp [trim, trimLeft]
    rw [this, h]
    simp
  have ho : operandWords (' ' :: (x ++ ',' :: ' ' :: y)) = [x, y] := by
    rw [operandWords, if_neg hn, hs]
    simp [trim_space_word x hx, trim_space_word y hy]
  simp only [parseChars]
  rw [ht, hm.takeWhile, hm.dropWhile, ho]

/-! ### Numbers -/

theorem digitValue_not_separator (base : Nat) (c : Char) (d : Nat) (h : digitValue base c = some d) : c ≠ ' ' ∧ c ≠ ',' := by
  constructor <;> rintro rfl <;> simp [digitValue] at h

theorem digitsFrom_chars (base acc n : Nat) (cs : List Char) (h : digitsFrom base acc cs = some n) :
    ∀ c ∈ cs, c ≠ ' ' ∧ c ≠ ',' := by
  induction cs generalizing acc with
  | nil => simp
  | cons c cs ih =>
    obtain ⟨d, hd, hr⟩ := Option.bind_eq_some_iff.mp h
    intro e he
    rcases List.mem_cons.mp he with rfl | he
    · exact digitValue_not_separator base e d hd
    · exact ih _ hr e he

theorem digits_isWord (base n : Nat) (cs : List Char) (h : digits base cs = some n) : IsWord cs := by
  unfold digits at h
  split at h
  · cases h
  · exact ⟨by assumption, digitsFrom_chars base 0 n cs h⟩

/-- A number is one word of a line. -/
theorem parseNumber_isWord (cs : List Char) (n : Nat) (h : parseNumber cs = some n) : IsWord cs := by
  unfold parseNumber at h
  split at h
  · refine ⟨by simp, ?_⟩
    simpa using (digits_isWord 16 n _ h).2
  · rename_i rest
    refine ⟨by simp, ?_⟩
    have hw := (digits_isWord 2 n _ h).2
    have : ∀ c ∈ rest, c ≠ ' ' ∧ c ≠ ',' := fun c hc => by
      by_cases hu : c = '_'
      · subst hu
        decide
      · exact hw c (by simp [hc, hu])
    simpa using this
  · exact digits_isWord 10 n cs h

/-- An operand of `w` bits takes a number below `2 ^ w` and no other (R73). -/
theorem immediate_of_number (w n : Nat) (cs : List Char) (h : parseNumber cs = some n) :
    immediate w cs = if n < 2 ^ w then some (BitVec.ofNat w n) else none := by
  simp [immediate, h]

end Sys2Proof.Machine
end

