-- ==== Sys2Proof/Laws/PerInstr.lean ====
section
/-! SUPPORT. The family `EncodedRow`: the word of every command is matched by the row of the opcode table that carries the
command's operation (R62, R63, R69), one lemma per constructor. -/

namespace Sys2Proof.Laws

/-- The op field survives a row's mask, since every mask covers bits 31..28 (R69). -/
theorem opField_of_matchesWord (r : Row) (hr : r ∈ opcodeTable) (cmd : Command) (h : r.matchesWord cmd = true) :
    opField r.pattern = opField cmd := by
  have covers : ∀ r ∈ opcodeTable, opField r.mask = 0xF#4 := by decide
  have hm := covers r hr
  rw [← eq_of_beq h]
  have hand : opField (cmd &&& r.mask) = opField cmd &&& opField r.mask := by
    refine BitVec.eq_of_getLsbD_eq (fun i hi => ?_)
    simp [opField, hi]
  rw [hand, hm, show (0xF#4 : BitVec 4) = BitVec.allOnes 4 by rfl, BitVec.and_allOnes]

/-- A row of the table that matches a word is the row the lookup finds. -/
theorem rowOf_of_matchesWord (r : Row) (hr : r ∈ opcodeTable) (cmd : Command) (h : r.matchesWord cmd = true) :
    rowOf cmd = some r.op := by
  have distinct : ∀ r ∈ opcodeTable, ∀ r' ∈ opcodeTable, opField r.pattern = opField r'.pattern → r = r' := by decide
  unfold rowOf
  cases hf : opcodeTable.find? (·.matchesWord cmd) with
  | none => exact absurd h (by simpa using List.find?_eq_none.mp hf r hr)
  | some r' =>
    have hr' := List.mem_of_find?_eq_some hf
    have h' := List.find?_some hf
    rw [distinct r hr r' hr' ((opField_of_matchesWord r hr cmd h).trans (opField_of_matchesWord r' hr' cmd h').symm)]
    rfl

namespace EncodedRow

/-- The word of `i` is of the row of the operation of `i`. -/
def Statement (i : Instr) : Prop := rowOf (encode i) = some i.op

theorem rd16 (p : Reg) : Statement (.rd16 p) := by cases p <;> rfl

theorem wr16 (p : Reg) (d16 : Word) : Statement (.wr16 p d16) := by
  refine rowOf_of_matchesWord ⟨.wr16, 0xF0FF0000, 0x10000000⟩ (by decide) _ (beq_iff_eq.mpr ?_)
  refine BitVec.eq_of_getLsbD_eq (fun i hi => ?_)
  simp only [encode, formatRW, BitVec.getLsbD_and, BitVec.getLsbD_append]
  interval_cases i <;> simp

theorem rdh (p : Reg) : Statement (.rdh p) := by cases p <;> rfl

theorem wrh (p : Reg) (d8 : Byte) : Statement (.wrh p d8) := by
  refine rowOf_of_matchesWord ⟨.wrh, 0xF0FFFF00, 0x30000000⟩ (by decide) _ (beq_iff_eq.mpr ?_)
  refine BitVec.eq_of_getLsbD_eq (fun i hi => ?_)
  simp only [encode, formatRB, BitVec.getLsbD_and, BitVec.getLsbD_append]
  interval_cases i <;> simp

theorem rdl (p : Reg) : Statement (.rdl p) := by cases p <;> rfl

theorem wrl (p : Reg) (d8 : Byte) : Statement (.wrl p d8) := by
  refine rowOf_of_matchesWord ⟨.wrl, 0xF0FFFF00, 0x50000000⟩ (by decide) _ (beq_iff_eq.mpr ?_)
  refine BitVec.eq_of_getLsbD_eq (fun i hi => ?_)
  simp only [encode, formatRB, BitVec.getLsbD_and, BitVec.getLsbD_append]
  interval_cases i <;> simp

theorem getf (f : Flag) : Statement (.getf f) := by cases f <;> rfl

theorem setf (f : Flag) (v : Bool) : Statement (.setf f v) := by cases f <;> cases v <;> rfl

theorem mrd (a16 : Addr) : Statement (.mrd a16) := by
  refine rowOf_of_matchesWord ⟨.mrd, 0xFF0000FF, 0x80000000⟩ (by decide) _ (beq_iff_eq.mpr ?_)
  refine BitVec.eq_of_getLsbD_eq (fun i hi => ?_)
  simp only [encode, formatMR, BitVec.getLsbD_and, BitVec.getLsbD_append]
  interval_cases i <;> simp

theorem mwr (a16 : Addr) (d8 : Byte) : Statement (.mwr a16 d8) := by
  refine rowOf_of_matchesWord ⟨.mwr, 0xFF000000, 0x90000000⟩ (by decide) _ (beq_iff_eq.mpr ?_)
  refine BitVec.eq_of_getLsbD_eq (fun i hi => ?_)
  simp only [encode, formatMW, BitVec.getLsbD_and, BitVec.getLsbD_append]
  interval_cases i <;> simp

theorem crd : Statement .crd := rfl

theorem cwr (d8 : Byte) : Statement (.cwr d8) := by
  refine rowOf_of_matchesWord ⟨.cwr, 0xFFFFFF00, 0xB0000000⟩ (by decide) _ (beq_iff_eq.mpr ?_)
  refine BitVec.eq_of_getLsbD_eq (fun i hi => ?_)
  simp only [encode, formatCW, BitVec.getLsbD_and, BitVec.getLsbD_append]
  interval_cases i <;> simp

end EncodedRow

end Sys2Proof.Laws
end

