-- ==== Sys2Proof/Laws/State.lean ====
section
/-! SUPPORT. What each state update leaves in each field and what the register accessor and the byte accessor read after it.
Every later proof reads an updated state through these. -/

namespace Sys2Proof.Machine

variable (s : State)

/-! ### `respond` -/

@[simp] theorem respond_af (v : Word) : (s.respond v).af = s.af := rfl
@[simp] theorem respond_bc (v : Word) : (s.respond v).bc = s.bc := rfl
@[simp] theorem respond_de (v : Word) : (s.respond v).de = s.de := rfl
@[simp] theorem respond_hl (v : Word) : (s.respond v).hl = s.hl := rfl
@[simp] theorem respond_sp (v : Word) : (s.respond v).sp = s.sp := rfl
@[simp] theorem respond_pc (v : Word) : (s.respond v).pc = s.pc := rfl
@[simp] theorem respond_mem (v : Word) : (s.respond v).mem = s.mem := rfl
@[simp] theorem respond_sel (v : Word) : (s.respond v).sel = s.sel := rfl
@[simp] theorem respond_resp (v : Word) : (s.respond v).resp = some ⟨.ok, v⟩ := rfl
@[simp] theorem respond_faultRec (v : Word) : (s.respond v).faultRec = s.faultRec := rfl
@[simp] theorem respond_pending (v : Word) : (s.respond v).pending = s.pending := rfl
@[simp] theorem respond_readReg (v : Word) (q : Reg) : (s.respond v).readReg q = s.readReg q := by cases q <;> rfl
@[simp] theorem respond_readByte (v : Word) (p : Place) : (s.respond v).readByte p = s.readByte p := rfl

/-! ### `takeFault` -/

@[simp] theorem takeFault_af (r : FaultRecord) : (s.takeFault r).af = s.af := rfl
@[simp] theorem takeFault_bc (r : FaultRecord) : (s.takeFault r).bc = s.bc := rfl
@[simp] theorem takeFault_de (r : FaultRecord) : (s.takeFault r).de = s.de := rfl
@[simp] theorem takeFault_hl (r : FaultRecord) : (s.takeFault r).hl = s.hl := rfl
@[simp] theorem takeFault_sp (r : FaultRecord) : (s.takeFault r).sp = s.sp := rfl
@[simp] theorem takeFault_pc (r : FaultRecord) : (s.takeFault r).pc = s.pc := rfl
@[simp] theorem takeFault_mem (r : FaultRecord) : (s.takeFault r).mem = s.mem := rfl
@[simp] theorem takeFault_sel (r : FaultRecord) : (s.takeFault r).sel = s.sel := rfl
@[simp] theorem takeFault_resp (r : FaultRecord) : (s.takeFault r).resp = some ⟨r.status, 0x0000⟩ := rfl
@[simp] theorem takeFault_faultRec (r : FaultRecord) : (s.takeFault r).faultRec = some r := rfl
@[simp] theorem takeFault_pending (r : FaultRecord) : (s.takeFault r).pending = s.pending := rfl
@[simp] theorem takeFault_readReg (r : FaultRecord) (q : Reg) : (s.takeFault r).readReg q = s.readReg q := by cases q <;> rfl
@[simp] theorem takeFault_readByte (r : FaultRecord) (p : Place) : (s.takeFault r).readByte p = s.readByte p := rfl

/-! ### `setSel` -/

@[simp] theorem setSel_af (i : BankNo) : (s.setSel i).af = s.af := rfl
@[simp] theorem setSel_bc (i : BankNo) : (s.setSel i).bc = s.bc := rfl
@[simp] theorem setSel_de (i : BankNo) : (s.setSel i).de = s.de := rfl
@[simp] theorem setSel_hl (i : BankNo) : (s.setSel i).hl = s.hl := rfl
@[simp] theorem setSel_sp (i : BankNo) : (s.setSel i).sp = s.sp := rfl
@[simp] theorem setSel_pc (i : BankNo) : (s.setSel i).pc = s.pc := rfl
@[simp] theorem setSel_mem (i : BankNo) : (s.setSel i).mem = s.mem := rfl
@[simp] theorem setSel_sel (i : BankNo) : (s.setSel i).sel = i := rfl
@[simp] theorem setSel_resp (i : BankNo) : (s.setSel i).resp = s.resp := rfl
@[simp] theorem setSel_faultRec (i : BankNo) : (s.setSel i).faultRec = s.faultRec := rfl
@[simp] theorem setSel_pending (i : BankNo) : (s.setSel i).pending = s.pending := rfl
@[simp] theorem setSel_readReg (i : BankNo) (q : Reg) : (s.setSel i).readReg q = s.readReg q := by cases q <;> rfl
@[simp] theorem setSel_readByte (i : BankNo) (p : Place) : (s.setSel i).readByte p = s.readByte p := rfl

/-! ### `setPending` -/

@[simp] theorem setPending_af (cmds : List Command) : (s.setPending cmds).af = s.af := rfl
@[simp] theorem setPending_bc (cmds : List Command) : (s.setPending cmds).bc = s.bc := rfl
@[simp] theorem setPending_de (cmds : List Command) : (s.setPending cmds).de = s.de := rfl
@[simp] theorem setPending_hl (cmds : List Command) : (s.setPending cmds).hl = s.hl := rfl
@[simp] theorem setPending_sp (cmds : List Command) : (s.setPending cmds).sp = s.sp := rfl
@[simp] theorem setPending_pc (cmds : List Command) : (s.setPending cmds).pc = s.pc := rfl
@[simp] theorem setPending_mem (cmds : List Command) : (s.setPending cmds).mem = s.mem := rfl
@[simp] theorem setPending_sel (cmds : List Command) : (s.setPending cmds).sel = s.sel := rfl
@[simp] theorem setPending_resp (cmds : List Command) : (s.setPending cmds).resp = s.resp := rfl
@[simp] theorem setPending_faultRec (cmds : List Command) : (s.setPending cmds).faultRec = s.faultRec := rfl
@[simp] theorem setPending_pending (cmds : List Command) : (s.setPending cmds).pending = cmds := rfl
@[simp] theorem setPending_readReg (cmds : List Command) (q : Reg) : (s.setPending cmds).readReg q = s.readReg q := by cases q <;> rfl
@[simp] theorem setPending_readByte (cmds : List Command) (p : Place) : (s.setPending cmds).readByte p = s.readByte p := rfl

/-! ### `writeByte` -/

@[simp] theorem writeByte_af (p : Place) (v : Byte) : (s.writeByte p v).af = s.af := rfl
@[simp] theorem writeByte_bc (p : Place) (v : Byte) : (s.writeByte p v).bc = s.bc := rfl
@[simp] theorem writeByte_de (p : Place) (v : Byte) : (s.writeByte p v).de = s.de := rfl
@[simp] theorem writeByte_hl (p : Place) (v : Byte) : (s.writeByte p v).hl = s.hl := rfl
@[simp] theorem writeByte_sp (p : Place) (v : Byte) : (s.writeByte p v).sp = s.sp := rfl
@[simp] theorem writeByte_pc (p : Place) (v : Byte) : (s.writeByte p v).pc = s.pc := rfl
@[simp] theorem writeByte_mem (p : Place) (v : Byte) : (s.writeByte p v).mem = Memory.write p.key v s.mem := rfl
@[simp] theorem writeByte_sel (p : Place) (v : Byte) : (s.writeByte p v).sel = s.sel := rfl
@[simp] theorem writeByte_resp (p : Place) (v : Byte) : (s.writeByte p v).resp = s.resp := rfl
@[simp] theorem writeByte_faultRec (p : Place) (v : Byte) : (s.writeByte p v).faultRec = s.faultRec := rfl
@[simp] theorem writeByte_pending (p : Place) (v : Byte) : (s.writeByte p v).pending = s.pending := rfl
@[simp] theorem writeByte_readReg (p : Place) (v : Byte) (q : Reg) : (s.writeByte p v).readReg q = s.readReg q := by cases q <;> rfl

/-! ### `writeReg` -/

@[simp] theorem writeReg_mem (p : Reg) (v : Word) : (s.writeReg p v).mem = s.mem := by cases p <;> rfl
@[simp] theorem writeReg_sel (p : Reg) (v : Word) : (s.writeReg p v).sel = s.sel := by cases p <;> rfl
@[simp] theorem writeReg_resp (p : Reg) (v : Word) : (s.writeReg p v).resp = s.resp := by cases p <;> rfl
@[simp] theorem writeReg_faultRec (p : Reg) (v : Word) : (s.writeReg p v).faultRec = s.faultRec := by cases p <;> rfl
@[simp] theorem writeReg_pending (p : Reg) (v : Word) : (s.writeReg p v).pending = s.pending := by cases p <;> rfl
@[simp] theorem writeReg_readByte (p : Reg) (v : Word) (b : Place) : (s.writeReg p v).readByte b = s.readByte b := by
  cases p <;> rfl
@[simp] theorem writeReg_readReg_self (p : Reg) (v : Word) : (s.writeReg p v).readReg p = v := by cases p <;> rfl

theorem writeReg_readReg_of_ne (p q : Reg) (v : Word) (h : q ≠ p) : (s.writeReg p v).readReg q = s.readReg q := by
  cases p <;> cases q <;> first | rfl | exact absurd rfl h

/-- What the register accessor reads after a register write. -/
theorem writeReg_readReg (p q : Reg) (v : Word) :
    (s.writeReg p v).readReg q = if q = p then v else s.readReg q := by
  split
  next h => simp [h]
  next h => exact writeReg_readReg_of_ne s p q v h

/-- Writing a register with what it holds changes nothing. -/
@[simp] theorem writeReg_readReg_eq_self (p : Reg) : s.writeReg p (s.readReg p) = s := by cases p <;> rfl

/-- A second write of a register hides the first. -/
@[simp] theorem writeReg_writeReg (p : Reg) (v w : Word) : (s.writeReg p v).writeReg p w = s.writeReg p w := by
  cases p <;> rfl

/-! ### `reset` (R36, R37) -/

@[simp] theorem reset_readReg (q : Reg) : State.reset.readReg q = 0x0000 := by cases q <;> rfl
@[simp] theorem reset_readByte (p : Place) : State.reset.readByte p = 0x00 := rfl
@[simp] theorem reset_sel : State.reset.sel = 1 := rfl
@[simp] theorem reset_faultRec : State.reset.faultRec = none := rfl
@[simp] theorem reset_pending : State.reset.pending = [] := rfl
@[simp] theorem reset_resp : State.reset.resp = none := rfl

end Sys2Proof.Machine
end

