-- ==== Sys2Proof/Laws/Views.lean ====
section
/-! SUPPORT. The laws of the register views and of the flag word: lanes and whole are one cell (R21, R22), and a flag write
changes one bit (R88). -/

namespace Sys2Proof.Machine

/-! ### Lanes of a word -/

@[simp] theorem hiLane_joinLanes (h l : Byte) : hiLane (joinLanes h l) = h := by
  ext i hi
  simp only [hiLane, joinLanes, BitVec.getElem_extractLsb', BitVec.getLsbD_append]
  simp [show ¬ 8 + i < 8 by omega, BitVec.getLsbD_eq_getElem hi]

@[simp] theorem loLane_joinLanes (h l : Byte) : loLane (joinLanes h l) = l := by
  ext i hi
  simp only [loLane, joinLanes, BitVec.getElem_extractLsb', BitVec.getLsbD_append]
  simp [hi]

/-- Which bit of the word is which bit of which lane (R22). -/
theorem joinLanes_getLsbD (h l : Byte) (i : Nat) :
    (joinLanes h l).getLsbD i = if i < 8 then l.getLsbD i else h.getLsbD (i - 8) := by
  simp only [joinLanes, BitVec.getLsbD_append]

/-- R22: the whole is its two lanes. -/
@[simp] theorem joinLanes_lanes (w : Word) : joinLanes (hiLane w) (loLane w) = w := by
  refine BitVec.eq_of_getLsbD_eq (fun i hi => ?_)
  simp only [hiLane, loLane, joinLanes, BitVec.getLsbD_append, BitVec.getLsbD_extractLsb']
  by_cases h : i < 8
  · simp [h]
  · simp [h, show i - 8 < 8 by omega, show 8 + (i - 8) = i by omega]

/-- R22: `(high << 8) | low`. -/
theorem joinLanes_eq_shift_or (h l : Byte) : joinLanes h l = (h.setWidth 16 <<< 8) ||| l.setWidth 16 := by
  refine BitVec.eq_of_getLsbD_eq (fun i hi => ?_)
  simp only [joinLanes, BitVec.getLsbD_append, BitVec.getLsbD_or, BitVec.getLsbD_shiftLeft, BitVec.getLsbD_setWidth]
  by_cases h8 : i < 8
  · simp [h8, hi]
  · have : l.getLsbD i = false := BitVec.getLsbD_of_ge l i (by omega)
    simp [h8, hi, this, show i - 8 < 16 by omega]

/-- R85: the high lane of `v` is `v >> 8`. -/
theorem zext16_hiLane (w : Word) : zext16 (hiLane w) = w >>> 8 := by
  ext i hi
  simp only [zext16, hiLane, BitVec.getElem_setWidth, BitVec.getLsbD_extractLsb', BitVec.getElem_ushiftRight]
  by_cases h : i < 8
  · simp [h]
  · have : w.getLsbD (8 + i) = false := BitVec.getLsbD_of_ge w _ (by omega)
    simp [this]

/-- R85: the low lane of `v` is `v & 0xFF`. -/
theorem zext16_loLane (w : Word) : zext16 (loLane w) = w &&& 0x00FF#16 := by
  ext i hi
  simp only [zext16, loLane, BitVec.getElem_setWidth, BitVec.getLsbD_extractLsb', BitVec.getElem_and]
  interval_cases i <;> simp [BitVec.getLsbD_eq_getElem]

/-! ### Bits of the flag word -/

/-- R26: two flags at one bit are one flag. -/
theorem flagBit_inj {f g : Flag} (h : f.bit = g.bit) : f = g := by
  cases f <;> cases g <;> first | rfl | exact absurd h (by decide)

theorem flagBit_lt (f : Flag) : f.bit < 8 := by cases f <;> decide

theorem four_le_flagBit (f : Flag) : 4 ≤ f.bit := by cases f <;> decide

@[simp] theorem flagMask_getLsbD (f : Flag) (i : Nat) : (flagMask f).getLsbD i = decide (i = f.bit) := by
  have := flagBit_lt f
  simp only [flagMask, BitVec.getLsbD_shiftLeft, BitVec.getLsbD_one]
  by_cases h : i = f.bit
  · simp [h]
    omega
  · simp [h]
    omega

/-- R88: a flag write sets bit `f` to `v` and keeps every other bit. -/
@[simp] theorem flagWord_getLsbD (w : Word) (f : Flag) (v : Bool) (i : Nat) :
    (flagWord w f v).getLsbD i = if i = f.bit then v else w.getLsbD i := by
  have := flagBit_lt f
  unfold flagWord
  by_cases h : i = f.bit
  · cases v <;> simp [h]
  · cases v <;> simp [h]
    intro hw
    exact BitVec.lt_of_getLsbD hw

/-- R87: the response to GETF is 0x0000 or 0x0001. -/
theorem bitWord_eq (v : Bool) : bitWord v = if v then 0x0001 else 0x0000 := by cases v <;> rfl

end Sys2Proof.Machine
end

