-- ==== Sys2Proof/Laws/Memory.lean ====
section
/-! SUPPORT. The laws of the banked memory: what a read sees after a write, that every write keeps the canonical form, and that
two memories in canonical form that read alike are one. -/

namespace Sys2Proof.Machine

/-! ### Keys -/

/-- Two places with one key are one place. -/
theorem Place.key_inj {p q : Place} (h : p.key = q.key) : p = q := by
  obtain ⟨b, o⟩ := p
  obtain ⟨b', o'⟩ := q
  have := o.isLt
  have := o'.isLt
  simp only [Place.key, Config.bankSize] at h
  have hb : b.toNat = b'.toNat := by omega
  have ho : o.toNat = o'.toNat := by omega
  rw [BitVec.eq_of_toNat_eq hb, BitVec.eq_of_toNat_eq ho]

/-- Every key lies in the storage of R29. -/
theorem Place.key_lt (p : Place) : p.key < Config.storageSize := by
  have := p.bank.isLt
  have := p.offset.isLt
  simp only [Place.key, Config.storageSize, Config.numBanks, Config.bankSize]
  omega

/-- Every key of the storage is the key of a place. -/
theorem Place.exists_key {k : Nat} (h : k < Config.storageSize) : ∃ p : Place, p.key = k := by
  simp only [Config.storageSize, Config.numBanks, Config.bankSize] at h
  refine ⟨⟨BitVec.ofNat 3 (k / 4096), BitVec.ofNat 12 (k % 4096)⟩, ?_⟩
  simp only [Place.key, Config.bankSize, BitVec.toNat_ofNat]
  omega

/-! ### Reading after writing -/

theorem Memory.read_consByte_ne (k j : Nat) (v : Byte) (m : Memory) (h : k ≠ j) :
    Memory.read (Memory.consByte k v m) j = Memory.read m j := by
  unfold Memory.consByte
  split <;> simp [Memory.read, h]

/-- A key below every listed key reads as the fill byte. -/
theorem Memory.read_of_lt (m : Memory) (k : Nat) (h : ∀ c ∈ m, k < c.1) :
    Memory.read m k = Config.fillByte := by
  induction m with
  | nil => rfl
  | cons c rest ih =>
    have := h c (by simp)
    rw [Memory.read, if_neg (by omega), ih (fun d hd => h d (by simp [hd]))]

theorem Memory.read_consByte_self (k : Nat) (v : Byte) (m : Memory) (h : ∀ c ∈ m, k < c.1) :
    Memory.read (Memory.consByte k v m) k = v := by
  unfold Memory.consByte
  split
  next hv => rw [Memory.read_of_lt m k h, hv]
  next => simp [Memory.read]

/-- A write leaves every other byte alone, in any memory. -/
theorem Memory.read_write_ne (k j : Nat) (v : Byte) (m : Memory) (h : k ≠ j) :
    Memory.read (Memory.write k v m) j = Memory.read m j := by
  induction m with
  | nil => exact Memory.read_consByte_ne k j v [] h
  | cons c rest ih =>
    unfold Memory.write
    split
    · exact Memory.read_consByte_ne k j v _ h
    · split
      next hk => rw [Memory.read_consByte_ne k j v _ h, Memory.read, if_neg (by omega)]
      next => simp only [Memory.read, ih]

/-- A memory whose keys rise: the first key is below the others. -/
theorem Memory.wf.head_lt {c : Host.Cell} {rest : Memory} (h : Memory.wf (c :: rest)) :
    ∀ d ∈ rest, c.1 < d.1 := (List.pairwise_cons.mp h.1).1

theorem Memory.wf.tail {c : Host.Cell} {rest : Memory} (h : Memory.wf (c :: rest)) : Memory.wf rest :=
  ⟨(List.pairwise_cons.mp h.1).2, fun d hd => h.2 d (by simp [hd])⟩

/-- A read after a write to the same byte gives the value written. -/
theorem Memory.read_write_self (k : Nat) (v : Byte) (m : Memory) (h : Memory.wf m) :
    Memory.read (Memory.write k v m) k = v := by
  induction m with
  | nil => exact Memory.read_consByte_self k v [] (by simp)
  | cons c rest ih =>
    have head := h.head_lt
    unfold Memory.write
    split
    next hk =>
      refine Memory.read_consByte_self k v _ (fun d hd => ?_)
      rcases List.mem_cons.mp hd with rfl | hd
      · exact hk
      · exact lt_trans hk (head d hd)
    next =>
      split
      next hk => exact Memory.read_consByte_self k v _ (fun d hd => hk ▸ head d hd)
      next hk => rw [Memory.read, if_neg (fun e => hk e.symm), ih h.tail]

/-! ### The canonical form -/

theorem Memory.wf_nil : Memory.wf [] := ⟨List.Pairwise.nil, by simp⟩

theorem Memory.wf_consByte (k : Nat) (v : Byte) (m : Memory) (h : Memory.wf m) (hk : k < Config.storageSize)
    (low : ∀ c ∈ m, k < c.1) : Memory.wf (Memory.consByte k v m) := by
  unfold Memory.consByte
  split
  · exact h
  next hv =>
    refine ⟨List.pairwise_cons.mpr ⟨low, h.1⟩, fun d hd => ?_⟩
    rcases List.mem_cons.mp hd with rfl | hd
    · exact ⟨hk, hv⟩
    · exact h.2 d hd

/-- A write lists no key that was not listed, but its own. -/
theorem Memory.mem_write (k : Nat) (v : Byte) (m : Memory) (d : Host.Cell) (hd : d ∈ Memory.write k v m) :
    d = (k, v) ∨ d ∈ m := by
  induction m with
  | nil =>
    unfold Memory.write Memory.consByte at hd
    split at hd <;> simp_all
  | cons c rest ih =>
    unfold Memory.write Memory.consByte at hd
    split at hd
    · split at hd <;> simp_all
    · split at hd
      · split at hd <;> simp_all
        tauto
      · rcases List.mem_cons.mp hd with rfl | hd
        · simp
        · rcases ih hd with h | h <;> simp [h]

/-- A write keeps the canonical form. -/
theorem Memory.wf_write (k : Nat) (v : Byte) (m : Memory) (h : Memory.wf m) (hk : k < Config.storageSize) :
    Memory.wf (Memory.write k v m) := by
  induction m with
  | nil => exact Memory.wf_consByte k v [] h hk (by simp)
  | cons c rest ih =>
    have head := h.head_lt
    unfold Memory.write
    split
    next hlt =>
      refine Memory.wf_consByte k v _ h hk (fun d hd => ?_)
      rcases List.mem_cons.mp hd with rfl | hd
      · exact hlt
      · exact lt_trans hlt (head d hd)
    next hlt =>
      split
      next heq => exact Memory.wf_consByte k v _ h.tail hk (fun d hd => heq ▸ head d hd)
      next hne =>
        refine ⟨List.pairwise_cons.mpr ⟨fun d hd => ?_, (ih h.tail).1⟩, fun d hd => ?_⟩
        · rcases Memory.mem_write k v rest d hd with rfl | hd
          · show c.1 < k
            omega
          · exact head d hd
        · rcases List.mem_cons.mp hd with rfl | hd
          · exact h.2 d (by simp)
          · exact (ih h.tail).2 d hd

/-- Two memories in canonical form that read alike everywhere are equal. -/
theorem Memory.eq_of_read_eq (m n : Memory) (hm : Memory.wf m) (hn : Memory.wf n)
    (same : ∀ k, Memory.read m k = Memory.read n k) : m = n := by
  induction m generalizing n with
  | nil =>
    cases n with
    | nil => rfl
    | cons d rest =>
      have := same d.1
      simp only [Memory.read, if_true] at this
      exact absurd this.symm (hn.2 d (by simp)).2
  | cons c ms ih =>
    cases n with
    | nil =>
      have := same c.1
      simp only [Memory.read, if_true] at this
      exact absurd this (hm.2 c (by simp)).2
    | cons d ns =>
      have hkey : c.1 = d.1 := by
        by_contra hne
        rcases Nat.lt_or_gt_of_ne hne with hlt | hlt
        · have := same c.1
          rw [Memory.read_of_lt (d :: ns) c.1 (fun e he => by
            rcases List.mem_cons.mp he with rfl | he
            · exact hlt
            · exact lt_trans hlt (hn.head_lt e he))] at this
          simp only [Memory.read, if_true] at this
          exact (hm.2 c (by simp)).2 this
        · have := same d.1
          rw [Memory.read_of_lt (c :: ms) d.1 (fun e he => by
            rcases List.mem_cons.mp he with rfl | he
            · exact hlt
            · exact lt_trans hlt (hm.head_lt e he))] at this
          simp only [Memory.read, if_true] at this
          exact (hn.2 d (by simp)).2 this.symm
      have hval : c.2 = d.2 := by
        have := same c.1
        simpa [Memory.read, hkey] using this
      have hrest : ms = ns := by
        refine ih ns hm.tail hn.tail (fun k => ?_)
        by_cases hk : c.1 = k
        · rw [Memory.read_of_lt ms k (hk ▸ hm.head_lt), Memory.read_of_lt ns k (hk ▸ hkey ▸ hn.head_lt)]
        · have := same k
          simpa [Memory.read, hk, hkey ▸ hk] using this
      rw [hrest, Prod.ext hkey hval]

/-- Writing the value a byte already reads as leaves a canonical memory as it is. -/
theorem Memory.write_read_self (k : Nat) (m : Memory) (h : Memory.wf m) (hk : k < Config.storageSize) :
    Memory.write k (Memory.read m k) m = m := by
  refine Memory.eq_of_read_eq _ _ (Memory.wf_write k _ m h hk) h (fun j => ?_)
  by_cases hj : k = j
  · rw [← hj, Memory.read_write_self k _ m h]
  · exact Memory.read_write_ne k j _ m hj

/-! ### The byte accessor -/

variable (s : State)

/-- A byte reads as what was stored there. -/
theorem writeByte_readByte_self (p : Place) (v : Byte) (h : Memory.wf s.mem) : (s.writeByte p v).readByte p = v :=
  Memory.read_write_self p.key v s.mem h

/-- Every other byte reads as before. -/
theorem writeByte_readByte_of_ne (p q : Place) (v : Byte) (h : q ≠ p) : (s.writeByte p v).readByte q = s.readByte q :=
  Memory.read_write_ne p.key q.key v s.mem (fun e => h (Place.key_inj e.symm))

/-- A store keeps the canonical form. -/
theorem writeByte_wf (p : Place) (v : Byte) (h : Memory.wf s.mem) : Memory.wf (s.writeByte p v).mem :=
  Memory.wf_write p.key v s.mem h p.key_lt

/-- A store of the byte that is there changes nothing. -/
theorem writeByte_readByte_eq_self (p : Place) (h : Memory.wf s.mem) : s.writeByte p (s.readByte p) = s := by
  have := Memory.write_read_self p.key s.mem h p.key_lt
  simp only [State.writeByte, State.readByte, this]

/-- The reset memory has the canonical form. -/
theorem reset_mem_wf : Memory.wf State.reset.mem := Memory.wf_nil

end Sys2Proof.Machine
end

