-- ==== Sys2Proof/Laws/Window.lean ====
section
/-! SUPPORT. What address resolution answers (R40), and what the access primitives do with it (R44, R45). -/

namespace Sys2Proof.Machine

/-- R39: the window check is the two comparisons. -/
theorem inWindowAt_iff (ws : Nat) (a : Addr) :
    inWindowAt ws a = true ↔ ws ≤ a.toNat ∧ a.toNat < ws + 8192 := by
  simp [inWindowAt]

/-- R39, R11: 0xC000 to 0xDFFF. -/
theorem inWindow_iff (a : Addr) : inWindow a = true ↔ 0xC000 ≤ a.toNat ∧ a.toNat < 0xE000 :=
  inWindowAt_iff 0xC000 a

/-- R40: resolution raises OutOfRange exactly outside the window. -/
theorem resolveAt_eq_none_iff (ws : Nat) (sel : BankNo) (a : Addr) :
    resolveAt ws sel a = none ↔ inWindowAt ws a = false := by
  unfold resolveAt
  split
  next h => split <;> simp [h]
  next h => simpa using h

/-- R40: all that resolution can answer. -/
theorem resolveAt_cases (ws : Nat) (sel : BankNo) (a : Addr) (p : Place) (h : resolveAt ws sel a = some p) :
    (ws ≤ a.toNat ∧ a.toNat < ws + 4096 ∧ p.bank = 0 ∧ p.offset.toNat = a.toNat - ws) ∨
    (ws + 4096 ≤ a.toNat ∧ a.toNat < ws + 8192 ∧ p.bank = sel ∧ p.offset.toNat = a.toNat - (ws + 4096)) := by
  unfold resolveAt at h
  split at h
  next hw =>
    rw [inWindowAt_iff] at hw
    simp only [Config.half] at h
    split at h <;> cases h
    next hh => exact .inl ⟨hw.1, hh, rfl, by simp; omega⟩
    next hh => exact .inr ⟨by omega, hw.2, rfl, by simp; omega⟩
  · cases h

/-- R40, first half: bank 0, whatever is selected. -/
theorem resolveAt_fixed (ws : Nat) (sel : BankNo) (a : Addr) (h₁ : ws ≤ a.toNat) (h₂ : a.toNat < ws + 4096) :
    resolveAt ws sel a = some ⟨0, BitVec.ofNat 12 (a.toNat - ws)⟩ := by
  rw [resolveAt, if_pos ((inWindowAt_iff ws a).mpr ⟨h₁, by omega⟩), if_pos (by simpa using h₂)]

/-- R40, second half: the selected bank. -/
theorem resolveAt_switchable (ws : Nat) (sel : BankNo) (a : Addr) (h₁ : ws + 4096 ≤ a.toNat)
    (h₂ : a.toNat < ws + 8192) :
    resolveAt ws sel a = some ⟨sel, BitVec.ofNat 12 (a.toNat - (ws + 4096))⟩ := by
  rw [resolveAt, if_pos ((inWindowAt_iff ws a).mpr ⟨by omega, h₂⟩), if_neg (by simp; omega)]

variable (s : State)

theorem memRead_of_resolve (a : Addr) (p : Place) (h : s.resolve a = some p) : s.memRead a = some (s.readByte p) := by
  simp [State.memRead, h]

theorem memWrite_of_resolve (a : Addr) (v : Byte) (p : Place) (h : s.resolve a = some p) :
    s.memWrite a v = some (s.writeByte p v) := by
  simp [State.memWrite, h]

/-- The two ways an access can go: outside the window nothing is answered; inside it, one place is read or written. -/
theorem access_cases (a : Addr) :
    (inWindow a = false ∧ s.resolve a = none ∧ s.memRead a = none ∧ ∀ v, s.memWrite a v = none) ∨
    (inWindow a = true ∧ ∃ p, s.resolve a = some p ∧ s.memRead a = some (s.readByte p) ∧
      ∀ v, s.memWrite a v = some (s.writeByte p v)) := by
  cases hr : s.resolve a with
  | none =>
    exact .inl ⟨(resolveAt_eq_none_iff _ _ _).mp hr, rfl, by simp [State.memRead, hr],
      fun v => by simp [State.memWrite, hr]⟩
  | some p =>
    refine .inr ⟨?_, p, rfl, memRead_of_resolve s a p hr, fun v => memWrite_of_resolve s a v p hr⟩
    by_contra hw
    rw [Bool.not_eq_true] at hw
    exact absurd ((resolveAt_eq_none_iff Config.windowStart s.sel a).mpr hw) (by
      show ¬ s.resolve a = none
      simp [hr])

/-- Resolution depends on the selected bank alone. -/
theorem resolve_eq_of_sel_eq (t : State) (a : Addr) (h : t.sel = s.sel) : t.resolve a = s.resolve a := by
  simp [State.resolve, h]

@[simp] theorem respond_resolve (v : Word) (a : Addr) : (s.respond v).resolve a = s.resolve a := rfl
@[simp] theorem takeFault_resolve (r : FaultRecord) (a : Addr) : (s.takeFault r).resolve a = s.resolve a := rfl
@[simp] theorem setPending_resolve (cmds : List Command) (a : Addr) : (s.setPending cmds).resolve a = s.resolve a := rfl
@[simp] theorem writeByte_resolve (p : Place) (v : Byte) (a : Addr) : (s.writeByte p v).resolve a = s.resolve a := rfl
@[simp] theorem writeReg_resolve (p : Reg) (v : Word) (a : Addr) : (s.writeReg p v).resolve a = s.resolve a := by
  cases p <;> rfl

end Sys2Proof.Machine
end

