-- ==== Sys2Proof/Laws/Step.lean ====
section
/-! SUPPORT. What a step can do, said once: the meaning of each kind of command as a sum of the shared updates, and the cases of
`step`. -/

namespace Sys2Proof.Machine

/-! ### Lane commands: an effect on a pair, a fault on SP and PC (R66) -/

variable (s : State)

theorem execRdh_pair (p : Reg) (h : p.isPair = true) : execRdh p s = .next (s.respond (zext16 (s.readHi p))) := by
  simp [execRdh, h]
theorem execWrh_pair (p : Reg) (d8 : Byte) (h : p.isPair = true) :
    execWrh p d8 s = .next ((s.writeHi p d8).respond 0x0000) := by
  simp [execWrh, h]
theorem execRdl_pair (p : Reg) (h : p.isPair = true) : execRdl p s = .next (s.respond (zext16 (s.readLo p))) := by
  simp [execRdl, h]
theorem execWrl_pair (p : Reg) (d8 : Byte) (h : p.isPair = true) :
    execWrl p d8 s = .next ((s.writeLo p d8).respond 0x0000) := by
  simp [execWrl, h]

/-! ### Memory commands: an effect in the window, a fault outside it (R91, R92, R100) -/

theorem execMrd_of_resolve (a : Addr) (p : Place) (h : s.resolve a = some p) :
    execMrd a s = .next (s.respond (zext16 (s.readByte p))) := by
  simp [execMrd, memRead_of_resolve s a p h]

theorem execMrd_outside (a : Addr) (h : s.resolve a = none) :
    execMrd a s = .next (s.takeFault (.outOfRange (encode (.mrd a)) a)) := by
  simp [execMrd, State.memRead, h]

theorem execMwr_of_resolve (a : Addr) (d : Byte) (p : Place) (h : s.resolve a = some p) :
    execMwr a d s = .next ((s.writeByte p d).respond 0x0000) := by
  simp [execMwr, memWrite_of_resolve s a d p h]

theorem execMwr_outside (a : Addr) (d : Byte) (h : s.resolve a = none) :
    execMwr a d s = .next (s.takeFault (.outOfRange (encode (.mwr a d)) a)) := by
  simp [execMwr, State.memWrite, h]

/-! ### Everything a command can do -/

/-- A command answers a next state, and that state is the old one after one of five updates: only the response, a
register, the byte an MWR resolves to, the selection of a CWR, or a fault. -/
theorem exec_cases (i : Instr) (s : State) :
    (∃ v, exec i s = .next (s.respond v)) ∨
    (∃ p v, exec i s = .next ((s.writeReg p v).respond 0x0000)) ∨
    (∃ a d p, i = .mwr a d ∧ s.resolve a = some p ∧ exec i s = .next ((s.writeByte p d).respond 0x0000)) ∨
    (∃ d8, i = .cwr d8 ∧ exec i s = .next ((s.setSel (selOf d8)).respond 0x0000)) ∨
    (∃ r, exec i s = .next (s.takeFault r) ∧
      ((∃ a, i.WellFormed ∧ (i = .mrd a ∨ ∃ d, i = .mwr a d) ∧ inWindow a = false ∧ r = .outOfRange (encode i) a) ∨
        (¬ i.WellFormed ∧ r = .illegalCommand (encode i)))) := by
  cases i with
  | rd16 p => exact .inl ⟨_, rfl⟩
  | wr16 p d16 => exact .inr (.inl ⟨_, _, rfl⟩)
  | rdh p =>
    by_cases h : p.isPair = true
    · exact .inl ⟨_, execRdh_pair s p h⟩
    · exact .inr (.inr (.inr (.inr ⟨.illegalCommand (encode (.rdh p)), by simp [exec, execRdh, h, takeIllegal],
        .inr ⟨h, rfl⟩⟩)))
  | wrh p d8 =>
    by_cases h : p.isPair = true
    · exact .inr (.inl ⟨_, _, execWrh_pair s p d8 h⟩)
    · exact .inr (.inr (.inr (.inr ⟨.illegalCommand (encode (.wrh p d8)), by simp [exec, execWrh, h, takeIllegal],
        .inr ⟨h, rfl⟩⟩)))
  | rdl p =>
    by_cases h : p.isPair = true
    · exact .inl ⟨_, execRdl_pair s p h⟩
    · exact .inr (.inr (.inr (.inr ⟨.illegalCommand (encode (.rdl p)), by simp [exec, execRdl, h, takeIllegal],
        .inr ⟨h, rfl⟩⟩)))
  | wrl p d8 =>
    by_cases h : p.isPair = true
    · exact .inr (.inl ⟨_, _, execWrl_pair s p d8 h⟩)
    · exact .inr (.inr (.inr (.inr ⟨.illegalCommand (encode (.wrl p d8)), by simp [exec, execWrl, h, takeIllegal],
        .inr ⟨h, rfl⟩⟩)))
  | getf f => exact .inl ⟨_, rfl⟩
  | setf f v => exact .inr (.inl ⟨_, _, rfl⟩)
  | mrd a =>
    rcases access_cases s a with ⟨hw, hr, -⟩ | ⟨-, p, hr, -⟩
    · exact .inr (.inr (.inr (.inr ⟨_, execMrd_outside s a hr, .inl ⟨a, rfl, .inl rfl, hw, rfl⟩⟩)))
    · exact .inl ⟨_, execMrd_of_resolve s a p hr⟩
  | mwr a d =>
    rcases access_cases s a with ⟨hw, hr, -⟩ | ⟨-, p, hr, -⟩
    · exact .inr (.inr (.inr (.inr ⟨_, execMwr_outside s a d hr, .inl ⟨a, rfl, .inr ⟨d, rfl⟩, hw, rfl⟩⟩)))
    · exact .inr (.inr (.inl ⟨a, d, p, rfl, hr, execMwr_of_resolve s a d p hr⟩))
  | crd => exact .inl ⟨_, rfl⟩
  | cwr d8 => exact .inr (.inr (.inr (.inl ⟨d8, rfl, rfl⟩)))

/-! ### Everything a step can do -/

/-- The four cases of a step: the block is stopped, no command is presented, the word is no command, or a command runs. -/
theorem step_cases (s : State) :
    (∃ r, s.faultRec = some r ∧ step s = .fault (.blockStopped r)) ∨
    (s.faultRec = none ∧ s.pending = [] ∧ step s = .next s) ∨
    (∃ cmd rest e, s.faultRec = none ∧ s.pending = cmd :: rest ∧ decode cmd = .error e ∧
      step s = .next ((s.setPending rest).takeFault (.illegalCommand cmd))) ∨
    (∃ cmd rest i, s.faultRec = none ∧ s.pending = cmd :: rest ∧ decode cmd = .ok i ∧
      step s = exec i (s.setPending rest)) := by
  cases hf : s.faultRec with
  | some r => exact .inl ⟨r, rfl, by simp [step, hf]⟩
  | none =>
    cases hp : s.pending with
    | nil => exact .inr (.inl ⟨rfl, rfl, by simp [step, hf, hp, idle]⟩)
    | cons cmd rest =>
      cases hd : decode cmd with
      | error e => exact .inr (.inr (.inl ⟨cmd, rest, e, rfl, rfl, hd, by simp [step, hf, hp, acceptCommand, hd]⟩))
      | ok i => exact .inr (.inr (.inr ⟨cmd, rest, i, rfl, rfl, hd, by simp [step, hf, hp, acceptCommand, hd]⟩))

/-- A step of a running block with a word waiting accepts that word. -/
theorem step_of_pending (cmd : Command) (rest : List Command) (hf : s.faultRec = none) (hp : s.pending = cmd :: rest) :
    step s = acceptCommand cmd (s.setPending rest) := by
  simp [step, hf, hp]

end Sys2Proof.Machine
end

