-- ==== Sys2Proof/Laws/Frames.lean ====
section
/-! SUPPORT. The frames of the shared updates: each of them, followed by its response, changes what its name says and nothing
else. -/

namespace Sys2Proof.Machine

variable (s : State)

theorem respond_onlyAnswers (v : Word) : OnlyAnswers v s (s.respond v) :=
  ⟨respond_readReg s v, respond_readByte s v, rfl, rfl, rfl, rfl⟩

theorem writeReg_onlyWritesReg (p : Reg) (v : Word) : OnlyWritesReg p v s ((s.writeReg p v).respond 0x0000) :=
  ⟨by simp, fun q h => by simp [writeReg_readReg_of_ne s p q v h], fun b => by simp, by simp, by simp, by simp, rfl⟩

theorem writeByte_onlyStoresAt (p : Place) (v : Byte) : OnlyStoresAt p s ((s.writeByte p v).respond 0x0000) :=
  ⟨fun q => by simp, fun q h => by simp [writeByte_readByte_of_ne s p q v h], rfl, rfl, rfl, rfl⟩

theorem setSel_onlySelects (i : BankNo) : OnlySelects i s ((s.setSel i).respond 0x0000) :=
  ⟨rfl, fun q => by simp, fun b => by simp, rfl, rfl, rfl⟩

theorem takeFault_onlyFaults (r : FaultRecord) : OnlyFaults r s (s.takeFault r) :=
  ⟨takeFault_readReg s r, takeFault_readByte s r, rfl, rfl, rfl, rfl⟩

/-- R82's own formula for a high-lane write. -/
theorem joinLanes_high (w : Word) (d : Byte) :
    joinLanes d (loLane w) = (d.setWidth 16 <<< 8) ||| (w &&& 0x00FF#16) := by
  rw [joinLanes_eq_shift_or]
  exact congrArg _ (zext16_loLane w)

/-- The same for a low-lane write (R84). -/
theorem joinLanes_low (w : Word) (d : Byte) : joinLanes (hiLane w) d = (w &&& 0xFF00#16) ||| d.setWidth 16 := by
  rw [joinLanes_eq_shift_or]
  refine congrArg (· ||| d.setWidth 16) (BitVec.eq_of_getLsbD_eq (fun i hi => ?_))
  simp only [hiLane, BitVec.getLsbD_shiftLeft, BitVec.getLsbD_setWidth, BitVec.getLsbD_extractLsb', BitVec.getLsbD_and]
  interval_cases i <;> simp

/-- R96's own formula for the bank a byte selects. -/
theorem selOf_eq_mod (d : Byte) : selOf d = if d.toNat % 8 = 0 then 1 else BitVec.ofNat 3 (d.toNat % 8) := by
  revert d
  decide

end Sys2Proof.Machine
end

