-- ==== Sys2Proof/Tests/Slice0.lean ====
section
/-! SUPPORT. Tests of the model. Every expected value is the spec's: 95_test_vectors.md (the vector or program is named),
the examples of 30_encoding.md R73, or the rule named. -/

namespace Sys2Proof.Tests

open Sys2Proof.Machine

/-! ### Well-formedness (R66): a lane command of SP or PC is refused -/

theorem test_wf_rdh_pair : (Instr.rdh .bc).WellFormed := by decide
theorem test_wf_rdh_sp : ¬ (Instr.rdh .sp).WellFormed := by decide
theorem test_wf_wrh_pc : ¬ (Instr.wrh .pc 0x01).WellFormed := by decide
theorem test_wf_rdl_pc : ¬ (Instr.rdl .pc).WellFormed := by decide
theorem test_wf_wrl_sp : ¬ (Instr.wrl .sp 0x01).WellFormed := by decide

/-! ### Decoding: the example word of each form of R73 -/

theorem test_decode_rd16 : (decode 0x03000000).toOption = some (.rd16 .hl) := by decide
theorem test_decode_wr16 : (decode 0x11001234).toOption = some (.wr16 .bc 0x1234) := by decide
theorem test_decode_rdh : (decode 0x21000000).toOption = some (.rdh .bc) := by decide
theorem test_decode_wrh : (decode 0x330000AB).toOption = some (.wrh .hl 0xAB) := by decide
theorem test_decode_rdl : (decode 0x41000000).toOption = some (.rdl .bc) := by decide
theorem test_decode_wrl : (decode 0x52000056).toOption = some (.wrl .de 0x56) := by decide
theorem test_decode_getf : (decode 0x65000000).toOption = some (.getf .h) := by decide
theorem test_decode_setf : (decode 0x77000001).toOption = some (.setf .z true) := by decide
theorem test_decode_mrd : (decode 0x80D01000).toOption = some (.mrd 0xD010) := by decide
theorem test_decode_mwr : (decode 0x90D01007).toOption = some (.mwr 0xD010 7) := by decide
theorem test_decode_crd : (decode 0xA0000000).toOption = some .crd := by decide
theorem test_decode_cwr : (decode 0xB00000F5).toOption = some (.cwr 0xF5) := by decide

/-- One word bit by bit: `WR16 PC, 0x8001` is `oooo` 0001, `ssss` 0101, eight zeros, sixteen data bits (R62 to R64). -/
theorem test_decode_bits :
    (decode 0b0001_0101_0000_0000_1000_0000_0000_0001).toOption = some (.wr16 .pc 0x8001) := by decide

/-! ### Decoding: words the spec refuses -/

theorem test_refuse_lane_of_sp : decode 0x24000000 = .error .selector := by rfl      -- R-16
theorem test_refuse_lane_of_pc : decode 0x55000001 = .error .selector := by rfl      -- R-17
theorem test_refuse_reserved_register : decode 0x06000000 = .error .selector := by rfl -- R-18
theorem test_refuse_rd16_bit0 : decode 0x03000001 = .error .mustBeZero := by rfl     -- R-19
theorem test_refuse_wr16_bit16 : decode 0x13010000 = .error .mustBeZero := by rfl    -- R-20
theorem test_refuse_getf_nibble : decode 0x63000000 = .error .selector := by rfl     -- F-10
theorem test_refuse_setf_8 : decode 0x78000001 = .error .selector := by rfl          -- F-11
theorem test_refuse_setf_bit1 : decode 0x77000002 = .error .mustBeZero := by rfl     -- F-12
theorem test_refuse_mrd_s1 : decode 0x81E00000 = .error .mustBeZero := by rfl        -- M-13
theorem test_refuse_cwr_s1 : decode 0xB1000002 = .error .mustBeZero := by rfl        -- C-12
theorem test_refuse_op_f : decode 0xF0000000 = .error .reservedOperation := by rfl   -- C-14

/-! ### Assembling: R73's lines and the range check -/

theorem test_assemble_rd16 : assemble "RD16 HL" = some 0x03000000 := by decide
theorem test_assemble_wr16 : assemble "WR16 BC, 0x1234" = some 0x11001234 := by decide
theorem test_assemble_rdh : assemble "RDH BC" = some 0x21000000 := by decide
theorem test_assemble_wrh : assemble "WRH HL, 0xAB" = some 0x330000AB := by decide
theorem test_assemble_rdl : assemble "RDL BC" = some 0x41000000 := by decide
theorem test_assemble_wrl : assemble "WRL DE, 0x56" = some 0x52000056 := by decide
theorem test_assemble_getf : assemble "GETF H" = some 0x65000000 := by decide
theorem test_assemble_setf : assemble "SETF Z, 1" = some 0x77000001 := by decide
theorem test_assemble_mrd : assemble "MRD 0xD010" = some 0x80D01000 := by decide
theorem test_assemble_mwr : assemble "MWR 0xD010, 7" = some 0x90D01007 := by decide
theorem test_assemble_crd : assemble "CRD" = some 0xA0000000 := by decide
theorem test_assemble_cwr : assemble "CWR 0xF5" = some 0xB00000F5 := by decide
theorem test_assemble_cwr_binary : assemble "CWR 0b1111_0101" = some 0xB00000F5 := by decide
theorem test_assemble_too_wide : assemble "WRH HL, 256" = none := by decide
theorem test_assemble_lane_of_sp : assemble "RDH SP" = none := by decide

/-! ### One step of each command: the vectors of 95_test_vectors.md -/

/-- The state after one step in which `cmd` is presented; none if the machine stops. -/
def after (s : State) (cmd : Command) : Option State :=
  match step (s.present cmd) with
  | .next t => some t
  | .fault _ => none
  | .refused _ => none

/-- What `after` shows in the response. -/
def answer (s : State) (cmd : Command) : Option (Option Response) := (after s cmd).map State.resp

/-- What `after` shows in a register. -/
def regAfterStep (s : State) (cmd : Command) (p : Reg) : Option Word := (after s cmd).map (·.readReg p)

/-- What `after` shows in a bank byte. -/
def byteAfterStep (s : State) (cmd : Command) (b : BankNo) (o : Offset) : Option Byte :=
  (after s cmd).map (·.readByte ⟨b, o⟩)

/-- A reset block with a value in one register. -/
def withReg (p : Reg) (v : Word) : State := State.reset.writeReg p v

/-- A reset block with a bank selected and one byte in a bank. -/
def withByte (sel : BankNo) (b : BankNo) (o : Offset) (v : Byte) : State :=
  (State.reset.setSel sel).writeByte ⟨b, o⟩ v

theorem test_rd16_pc : answer (withReg .pc 0xABCD) 0x05000000 = some (some ⟨.ok, 0xABCD⟩) := by decide        -- R-15
theorem test_wr16_bc : regAfterStep (withReg .de 0x5678) 0x1100BEEF .bc = some 0xBEEF := by decide             -- R-14
theorem test_wr16_bc_keeps_de : regAfterStep (withReg .de 0x5678) 0x1100BEEF .de = some 0x5678 := by decide    -- R-14
theorem test_rdh_bc : answer (withReg .bc 0x1234) 0x21000000 = some (some ⟨.ok, 0x0012⟩) := by decide          -- R-2
theorem test_wrh_hl : regAfterStep (withReg .hl 0x1234) 0x330000AB .hl = some 0xAB34 := by decide              -- R-4
theorem test_wrh_af : regAfterStep (withReg .af 0x12FF) 0x30000034 .af = some 0x34FF := by decide              -- R-12
theorem test_rdl_af : answer (withReg .af 0x12FF) 0x40000000 = some (some ⟨.ok, 0x00FF⟩) := by decide          -- R-11
theorem test_wrl_de : regAfterStep (withReg .de 0xFFFF) 0x52000000 .de = some 0xFF00 := by decide              -- R-7
theorem test_getf_c : answer (withReg .af 0x0010) 0x64000000 = some (some ⟨.ok, 0x0001⟩) := by decide          -- F-7
theorem test_getf_h : answer (withReg .af 0xFF0F) 0x65000000 = some (some ⟨.ok, 0x0000⟩) := by decide          -- F-9
theorem test_setf_n : regAfterStep (withReg .af 0xFF0F) 0x76000001 .af = some 0xFF4F := by decide              -- F-4
theorem test_setf_h_clear : regAfterStep (withReg .af 0xFFFF) 0x75000000 .af = some 0xFFDF := by decide        -- F-5
theorem test_mrd_last : answer (withByte 7 7 0xFFF 0x44) 0x80DFFF00 = some (some ⟨.ok, 0x0044⟩) := by decide   -- M-6
theorem test_mrd_fixed : answer (withByte 6 0 0x010 0x99) 0x80C01000 = some (some ⟨.ok, 0x0099⟩) := by decide  -- M-7
theorem test_mwr_first : byteAfterStep State.reset 0x90D00033 1 0x000 = some 0x33 := by decide                 -- M-4
theorem test_mwr_last : byteAfterStep (State.reset.setSel 7) 0x90DFFF44 7 0xFFF = some 0x44 := by decide       -- M-5
theorem test_crd_sel7 : answer (State.reset.setSel 7) 0xA0000000 = some (some ⟨.ok, 0x00FF⟩) := by decide      -- C-9
theorem test_cwr_coerced : (after (State.reset.setSel 3) 0xB0000008).map State.sel = some 1 := by decide       -- C-5
theorem test_cwr_masked : (after State.reset 0xB00000F5).map State.sel = some 5 := by decide                   -- C-6

theorem test_out_of_range_record :                                                                             -- M-9
    (after State.reset 0x80E00000).map State.faultRec = some (some (.outOfRange 0x80E00000 0xE000)) := by decide
theorem test_out_of_range_below : answer State.reset 0x80BFFF00 = some (some ⟨.outOfRange, 0x0000⟩) := by decide -- M-8
theorem test_illegal_record :                                                                                  -- R-16
    (after State.reset 0x24000000).map State.faultRec = some (some (.illegalCommand 0x24000000)) := by decide
theorem test_decode_wins_over_range :                                                                          -- M-13
    (after State.reset 0x81E00000).map State.faultRec = some (some (.illegalCommand 0x81E00000)) := by decide
theorem test_faulted_block_stops :                                                                             -- P4, step 4
    after (State.reset.takeFault (.outOfRange 0x90E00001 0xE000)) 0x80DFFF00 = none := by decide
theorem test_withFetchWord :                                                                                   -- S5, first command
    (match step (State.reset.withFetchWord 32 0xB0000002) with
      | .next t => some t.sel
      | .fault _ => none
      | .refused _ => none) = some 2 := by decide
theorem test_store_of_zero_unlists : (withByte 1 1 0x000 0x33).mem.length = 1 ∧
    ((withByte 1 1 0x000 0x33).writeByte ⟨1, 0x000⟩ 0x00).mem = [] := by decide

end Sys2Proof.Tests
end

