-- ==== Sys2Proof/Tests/Witnesses.lean ====
section
/-! SUPPORT. For each obligation with hypotheses, a concrete case that meets all of them together; for a statement of several
clauses, a case for each clause, at the ends of its range. Each is named after its obligation. -/

namespace Sys2Proof.Tests

open Sys2Proof.Machine

/-- The word of a command is the word of a correct issuer, by its decoding. -/
theorem correct_of_decode (cmd : Command) (i : Instr) (h : decode cmd = .ok i) (hc : i.inContract = true) : Correct cmd :=
  ⟨i, h, hc⟩

theorem not_ok_of_error (cmd : Command) (e : Illegal) (h : decode cmd = .error e) : ∀ i, decode cmd ≠ .ok i := by
  intro i
  rw [h]
  simp

/-! ### Register and flag commands -/

theorem witness_rd16_wr16_reserved_selectors : 5 < (6#4).toNat ∧ 5 < (15#4).toNat := by decide

theorem witness_lane_selectors : 3 < (4#4).toNat ∧ 3 < (5#4).toNat ∧ 3 < (15#4).toNat ∧
    Reg.isPair .af = true ∧ Reg.isPair .hl = true ∧ Reg.isPair .sp = false ∧ Reg.isPair .pc = false := by decide

theorem witness_flag_selectors : (3#4).toNat < 4 ∧ 7 < (8#4).toNat ∧ (0x000002#24).extractLsb' 1 23 ≠ 0 := by decide

/-- A command of the register file, a word of one, and a word of one with a reserved selector, at both ends of its op field. -/
theorem witness_registerCommandsFailOnlyAtDecode :
    (Instr.rdh .bc).ofRegisterFile = true ∧ (Instr.rdh .bc).WellFormed ∧
    (State.reset.present 0x77000001).faultRec = none ∧ (State.reset.present 0x77000001).pending = [0x77000001] ∧
    ((0x77000001#32).extractLsb' 28 4).toNat ≤ 7 ∧ ((0x06000000#32).extractLsb' 28 4).toNat ≤ 7 := by decide

theorem witness_pcAndSpChangeOnlyByWr16 :
    (∃ t, step (State.reset.present 0x15000150) = .next t ∧ t.pc ≠ State.reset.pc) ∧
    (∃ t, step (State.reset.present 0x1400FFFE) = .next t ∧ t.sp ≠ State.reset.sp) :=
  ⟨⟨_, rfl, by decide⟩, ⟨_, rfl, by decide⟩⟩

theorem witness_flagRegisterHasThreeWriters :
    ∃ t, step (State.reset.present 0x77000001) = .next t ∧ t.readLo .af ≠ State.reset.readLo .af :=
  ⟨_, rfl, by decide⟩

/-! ### Memory commands -/

theorem witness_window_clauses :
    0xC000 ≤ (0xC000#16).toNat ∧ (0xCFFF#16).toNat < 0xD000 ∧ 0xD000 ≤ (0xD000#16).toNat ∧ (0xDFFF#16).toNat < 0xE000 ∧
    (0xBFFF#16).toNat < 0xC000 ∧ 0xE000 ≤ (0xE000#16).toNat := by decide

theorem witness_mwrStoresTheResolvedByte : Memory.wf (withByte 7 7 0xFFF 0x44).mem := by decide

theorem witness_mwrFrameThroughResolution :
    State.reset.resolve 0xD000 = some ⟨1, 0x000⟩ ∧ State.reset.resolve 0xC000 ≠ some ⟨1, 0x000⟩ ∧
    State.reset.resolve 0xE000 = none := by decide

theorem witness_bankWriteThenReadRoundTrips :
    Memory.wf State.reset.mem ∧ inWindow 0xC000 = true ∧ inWindow 0xDFFF = true := by decide

theorem witness_banksAreIndependent :
    (∃ t, State.reset.resolve 0xD010 = some ⟨1, 0x010⟩ ∧ (⟨2, 0x010⟩ : Place) ≠ ⟨1, 0x010⟩ ∧
      exec (.mwr 0xD010 7) State.reset = .next t) ∧
    (Memory.wf State.reset.mem ∧ 0xC000 ≤ (0xCFFF#16).toNat ∧ (0xCFFF#16).toNat < 0xD000) ∧
    (0xD000 ≤ (0xD010#16).toNat ∧ (0xD010#16).toNat < 0xE000 ∧ selOf 3 ≠ State.reset.sel) :=
  ⟨⟨_, by decide, by decide, rfl⟩, by decide, by decide⟩

theorem witness_windowStart : (1 : BankNo) ≠ 0 ∧ 0xB011 + 0x2000 ≤ 0x10000 ∧ 0xC010 + 0x2000 ≤ 0x10000 ∧
    Config.LegalWindowStart 0xB011 ∧ Config.LegalWindowStart 0xC010 := by decide

theorem witness_everyReachableByteHasOneAddress :
    Config.LegalWindowStart 0xC000 ∧ (7 : BankNo) ≠ 0 ∧ (⟨7, 0xFFF⟩ : Place).bank = 7 ∧
    ((⟨3, 0xFFF⟩ : Place).bank ≠ 0 ∧ (⟨3, 0xFFF⟩ : Place).bank ≠ 7) := by decide

theorem witness_unselectedBanksKeepTheirBytes :
    ∃ t, step (State.reset.present 0x90D00033) = .next t ∧ (⟨2, 0x000⟩ : Place).bank ≠ 0 ∧
      (⟨2, 0x000⟩ : Place).bank ≠ (State.reset.present 0x90D00033).sel :=
  ⟨_, rfl, by decide, by decide⟩

/-! ### Control commands -/

theorem witness_crdAnswersTheControlRegister : State.reset.sel ≠ 0 ∧ (State.reset.setSel 7).sel ≠ 0 := by decide

theorem witness_cwrSelectsTheMaskedBank :
    ∃ t, step (State.reset.present 0xB0000007) = .next t ∧ t.sel ≠ State.reset.sel :=
  ⟨_, rfl, by decide⟩

theorem witness_controlWriteIsMaskedAndCoerced :
    (0x08#8).toNat % 8 = (0xF8#8).toNat % 8 ∧ (0x00#8).toNat % 8 ≤ 1 ∧ (0x01#8).toNat % 8 ≤ 1 := by decide

theorem witness_bankSelectTakesEffectAtOnce :
    0xD000 ≤ (0xDFFF#16).toNat ∧ (0xDFFF#16).toNat < 0xE000 ∧ Memory.wf (withByte 7 7 0xFFF 0x44).mem ∧
    (⟨3, 0xFFF⟩ : Place) = ⟨if (0xFB#8).toNat % 8 = 0 then 1 else BitVec.ofNat 3 ((0xFB#8).toNat % 8),
      BitVec.ofNat 12 ((0xDFFF#16).toNat - 0xD000)⟩ := by decide

/-- A reset block whose issuer presents one store and no CWR. -/
def oneStore : State := State.reset.present 0x90D01007

theorem oneStore_word : decode 0x90D01007 = .ok (.mwr 0xD010 7) := rfl

theorem witness_withoutCwrBankOneStaysMapped :
    oneStore.sel = 1 ∧ (∀ cmd ∈ oneStore.pending, ∀ d, decode cmd ≠ .ok (.cwr d)) ∧
    (∃ t, Sys2Proof.core.run 1 oneStore = .next t) ∧ oneStore.faultRec = none ∧
    (∀ cmd ∈ oneStore.pending, CorrectIn .legacy cmd) := by
  refine ⟨rfl, ?_, ⟨_, rfl⟩, rfl, ?_⟩
  · intro cmd h d
    rw [List.mem_singleton.mp h, oneStore_word]
    simp
  · intro cmd h
    rw [List.mem_singleton.mp h]
    exact ⟨_, oneStore_word, by decide, fun _ => rfl⟩

/-! ### Encoding -/

theorem witness_decodeOfEncode : (Instr.wr16 .pc 0xFFFF).WellFormed ∧ ¬ (Instr.rdh .pc).WellFormed := by decide

theorem witness_encodeOfDecode : decode 0x1500FFFF = .ok (.wr16 .pc 0xFFFF) := rfl

theorem witness_illegalSelectorsAreRefused :
    ((0x06000000#32).extractLsb' 28 4 = 0x0#4 ∧ 5 < ((0x06000000#32).extractLsb' 24 4).toNat) ∧
    ((0x24000000#32).extractLsb' 28 4 = 0x2#4 ∧ 3 < ((0x24000000#32).extractLsb' 24 4).toNat) ∧
    ((0x63000000#32).extractLsb' 28 4 = 0x6#4 ∧ ((0x63000000#32).extractLsb' 24 4).toNat < 4) ∧
    ((0x78000001#32).extractLsb' 28 4 = 0x7#4 ∧ 7 < ((0x78000001#32).extractLsb' 24 4).toNat) := by decide

theorem witness_mustBeZeroBitsAreRefused :
    ((0x03800000#32).extractLsb' 28 4 = 0x0#4 ∧ (0x03800000#32).extractLsb' 0 24 ≠ 0) ∧
    ((0x13010000#32).extractLsb' 28 4 = 0x1#4 ∧ (0x13010000#32).extractLsb' 16 8 ≠ 0) ∧
    ((0x33000100#32).extractLsb' 28 4 = 0x3#4 ∧ (0x33000100#32).extractLsb' 8 16 ≠ 0) ∧
    ((0x77000002#32).extractLsb' 28 4 = 0x7#4 ∧ (0x77000002#32).extractLsb' 1 23 ≠ 0) ∧
    ((0x80D01001#32).extractLsb' 28 4 = 0x8#4 ∧ (0x80D01001#32).extractLsb' 0 8 ≠ 0) ∧
    ((0x91D01007#32).extractLsb' 28 4 = 0x9#4 ∧ (0x91D01007#32).extractLsb' 24 4 ≠ 0) ∧
    ((0xA0000001#32).extractLsb' 28 4 = 0xA#4 ∧ (0xA0000001#32).extractLsb' 0 28 ≠ 0) ∧
    ((0xB1000002#32).extractLsb' 28 4 = 0xB#4 ∧ (0xB1000002#32).extractLsb' 8 20 ≠ 0) := by decide

theorem witness_reservedOperationsAreRefused :
    0xC ≤ ((0xC0000000#32).extractLsb' 28 4).toNat ∧ 0xC ≤ ((0xF0000000#32).extractLsb' 28 4).toNat := by decide

theorem witness_atMostOneRowMatches :
    (⟨.wr16, 0xF0FF0000, 0x10000000⟩ : Row) ∈ opcodeTable ∧
    (⟨.wr16, 0xF0FF0000, 0x10000000⟩ : Row).matchesWord 0x11001234 = true := by decide

/-- A line that assembles, and numbers at both sides of each limit. -/
theorem witness_assembledLinesAreCommands : assemble "WRL DE, 0x56" = some 0x52000056 ∧
    parseNumber "0xFFFF".toList = some 0xFFFF ∧ parseNumber "65536".toList = some 0x10000 ∧
    parseNumber "0b1111_1111".toList = some 0xFF ∧ parseNumber "0x100".toList = some 0x100 ∧
    parseNumber "1".toList = some 1 ∧ parseNumber "2".toList = some 2 := by decide

/-! ### The step and the faults -/

theorem witness_stepRunsTheDecodedCommand :
    oneStore.faultRec = none ∧ oneStore.pending = [0x90D01007] ∧ decode 0x90D01007 = .ok (.mwr 0xD010 7) ∧
    decodeTableWord 32 0x90D01007 = some (.mwr 0xD010 7) ∧ State.reset.pending = [] :=
  ⟨rfl, rfl, rfl, by decide, rfl⟩

/-- A reset block that is presented a lane command of SP (R-16). -/
def laneOfSp : State := State.reset.present 0x24000000

theorem laneOfSp_word : ∀ i, decode 0x24000000 ≠ .ok i := not_ok_of_error _ .selector rfl

theorem witness_illegalWordsTakeTheFault :
    laneOfSp.faultRec = none ∧ laneOfSp.pending = [0x24000000] ∧ ∀ i, decode 0x24000000 ≠ .ok i :=
  ⟨rfl, rfl, laneOfSp_word⟩

/-- A reset block that is presented a read one above the window (M-9). -/
def readAbove : State := State.reset.present 0x80E00000

theorem witness_outOfRangeAddressesTakeTheFault :
    (readAbove.faultRec = none ∧ readAbove.pending = [0x80E00000] ∧ decode 0x80E00000 = .ok (.mrd 0xE000) ∧
      (Instr.mrd 0xE000).address = some 0xE000 ∧ 0xE000 ≤ (0xE000#16).toNat ∧ (0xBFFF#16).toNat < 0xC000) ∧
    ∃ t, step readAbove = .next t ∧ t.faultRec = some (.outOfRange 0x80E00000 0xE000) :=
  ⟨⟨rfl, rfl, rfl, rfl, by decide, by decide⟩, _, rfl, rfl⟩

theorem witness_decodingComesBeforeTheRangeCheck :
    (∃ t, step (State.reset.present 0x81E00000) = .next t ∧ ∀ i, decode 0x81E00000 ≠ .ok i) ∧
    (∃ t, step readAbove = .next t ∧ decode 0x80E00000 = .ok (.mrd 0xE000) ∧
      t.faultRec = some (.outOfRange 0x80E00000 0xE000)) :=
  ⟨⟨_, rfl, not_ok_of_error _ .mustBeZero rfl⟩, _, rfl, rfl, rfl⟩

theorem witness_noOtherFaultExists : ∃ t, laneOfSp.faultRec = none ∧ step laneOfSp = .next t ∧ t.faultRec ≠ none :=
  ⟨_, rfl, rfl, by decide⟩

theorem witness_faultedBlockNeverResumes :
    ∃ t, exec .crd (State.reset.takeFault (.illegalCommand 0x24000000)) = .next t ∧
      (State.reset.takeFault (.illegalCommand 0x24000000)).faultRec ≠ none :=
  ⟨_, rfl, by decide⟩

theorem correct_p4_store : Correct 0x90DFFF5A := correct_of_decode _ (.mwr 0xDFFF 0x5A) rfl (by decide)

theorem incorrect_p4_store : ¬ Correct 0x90E00001 := by
  rintro ⟨i, hd, hc⟩
  have : decode 0x90E00001 = .ok (.mwr 0xE000 0x01) := rfl
  rw [this] at hd
  cases hd
  exact absurd hc (by decide)

/-- Program P4 of 95_test_vectors.md without its second step. -/
theorem witness_faultsArePrecise :
    (State.reset.setPending [0x90DFFF5A, 0x90E00001, 0x80DFFF00]).faultRec = none ∧
    (State.reset.setPending [0x90DFFF5A, 0x90E00001, 0x80DFFF00]).pending = [0x90DFFF5A] ++ 0x90E00001 :: [0x80DFFF00] ∧
    (∀ cmd ∈ [0x90DFFF5A], Correct cmd) ∧ ¬ Correct 0x90E00001 :=
  ⟨rfl, rfl, by simpa using correct_p4_store, incorrect_p4_store⟩

theorem witness_everyCommandIsAnsweredInItsStep :
    oneStore.faultRec = none ∧ oneStore.pending = [0x90D01007] ∧ decode 0x90D01007 = .ok (.mwr 0xD010 7) ∧
    (Instr.mwr 0xD010 7).isWrite = true :=
  ⟨rfl, rfl, rfl, rfl⟩

theorem witness_readsAreSilentAndWritesIdempotent :
    (∃ t, (Instr.mrd 0xDFFF).isWrite = false ∧ exec (.mrd 0xDFFF) (withByte 7 7 0xFFF 0x44) = .next t ∧
      t.resp = some ⟨.ok, 0x0044⟩) ∧
    (∃ t, Memory.wf (withByte 7 7 0xFFF 0x44).mem ∧ exec (.mwr 0xDFFF 0x00) (withByte 7 7 0xFFF 0x44) = .next t) ∧
    Reg.isPair .de = true ∧ (withByte 7 7 0xFFF 0x44).memRead 0xDFFF = some 0x44 ∧ (withByte 7 7 0xFFF 0x44).sel ≠ 0 :=
  ⟨⟨_, rfl, rfl, by decide⟩, ⟨_, by decide, rfl⟩, rfl, by decide, by decide⟩

/-! ### The whole machine -/

/-- A block in the middle of a session: bank 7 selected, a byte there, a response given, a word waiting. -/
def midSession : State := ((withByte 7 7 0xFFF 0x44).respond 0x0000).present 0x80DFFF00

theorem midSession_inv : Inv midSession :=
  { memory := by decide
    selected := by decide
    faulted := fun r h => by cases h
    running := fun a _ h => by
      cases h
      rfl }

theorem witness_stepKeepsTheInvariant : ∃ t, Inv midSession ∧ step midSession = .next t := ⟨_, midSession_inv, rfl⟩

theorem witness_selectedBankIsNeverZero :
    (∃ t, (∀ d, Instr.rd16 .bc ≠ .cwr d) ∧ exec (.rd16 .bc) midSession = .next t) ∧
    ∃ t, midSession.sel ≠ 0 ∧ step midSession = .next t :=
  ⟨⟨_, by simp, rfl⟩, _, by decide, rfl⟩

theorem witness_noHiddenState : Inv midSession ∧ SameRegs midSession midSession ∧ SameBytes midSession midSession :=
  ⟨midSession_inv, fun _ => rfl, fun _ => rfl⟩

/-- The first three commands of program P2. -/
def p2Start : List Instr := [.mwr 0xC123 0xAA, .cwr 2, .mwr 0xD010 7]

theorem witness_correctIssuerRunsToTheEnd :
    (State.reset.setPending [0x90C123AA, 0xB0000002]).faultRec = none ∧
    (∀ cmd ∈ [0x90C123AA, 0xB0000002], Correct cmd) ∧ ([0x90C123AA, 0xB0000002] : List Command) ≠ [] := by
  refine ⟨rfl, ?_, by decide⟩
  intro cmd h
  rcases List.mem_cons.mp h with rfl | h
  · exact correct_of_decode _ (.mwr 0xC123 0xAA) rfl (by decide)
  · rw [List.mem_singleton.mp h]
    exact correct_of_decode _ (.cwr 2) rfl (by decide)

theorem witness_everyReadSeesTheLastWrite :
    Memory.wf (State.reset.setPending (p2Start.map encode)).mem ∧
    (∀ i ∈ p2Start, i.WellFormed ∧ i.inContract = true) ∧
    resolveAt Config.windowStart (selAfterAll 1 p2Start) 0xD010 = some ⟨2, 0x010⟩ ∧ Reg.isPair .af = true ∧
    byteAfterAll ⟨2, 0x010⟩ 1 0x00 p2Start = 0x07 := by decide

/-- The word of `RDL AF`, and two blocks with the same registers and different memories. -/
theorem witness_registerFileIgnoresBankedMemory :
    SameRegs (State.reset.present 0x40000000) ((withByte 7 7 0xFFF 0x44).present 0x40000000) ∧
    (∀ cmd ∈ (State.reset.present 0x40000000).pending, ∀ i, decode cmd = .ok i → i.ofRegisterFile = true) := by
  refine ⟨fun q => by cases q <;> rfl, fun cmd h i hd => ?_⟩
  rw [List.mem_singleton.mp h, show decode 0x40000000 = .ok (.rdl .af) from rfl] at hd
  cases hd
  rfl

theorem witness_laneCommandsOfSpAndPcTakeTheFault :
    Reg.isPair .sp = false ∧ Reg.isPair .pc = false ∧ ¬ (Instr.rdh .sp).WellFormed ∧ laneOfSp.faultRec = none ∧
    laneOfSp.pending = encode (.rdh .sp) :: [] := by decide

/-- The word of `MRD 0xDFFF`, and two blocks with the same memory and different registers. -/
theorem witness_bankedMemoryIgnoresRegisterFile :
    (withByte 7 7 0xFFF 0x44).mem = ((withByte 7 7 0xFFF 0x44).writeReg .hl 0xD000).mem ∧
    (∀ cmd ∈ ((withByte 7 7 0xFFF 0x44).present 0x80DFFF00).pending, ∀ i, decode cmd = .ok i →
      i.ofRegisterFile = false) := by
  refine ⟨rfl, fun cmd h i hd => ?_⟩
  rw [List.mem_singleton.mp h, show decode 0x80DFFF00 = .ok (.mrd 0xDFFF) from rfl] at hd
  cases hd
  rfl

end Sys2Proof.Tests
end

section
/-! Scope (00_scope.md): one step of the port, the legal window bases, and that the register file and the banked memory do not see
each other (R2, R11, R17). -/

namespace Sys2Proof.Machine

/-! ### What the port does with a word -/

theorem acceptCommand_of_decode {cmd : Command} {i : Instr} (s : State) (h : decode cmd = .ok i) :
    acceptCommand cmd s = exec i s := by
  simp [acceptCommand, h]

theorem step_of_decode {s : State} {cmd : Command} {rest : List Command} {i : Instr} (hf : s.faultRec = none)
    (hp : s.pending = cmd :: rest) (hd : decode cmd = .ok i) : step s = exec i (s.setPending rest) := by
  rw [step_of_pending s cmd rest hf hp, acceptCommand_of_decode _ hd]

theorem step_of_illegal {s : State} {cmd : Command} {rest : List Command} {e : Illegal} (hf : s.faultRec = none)
    (hp : s.pending = cmd :: rest) (hd : decode cmd = .error e) :
    step s = .next ((s.setPending rest).takeFault (.illegalCommand cmd)) := by
  simp [step_of_pending s cmd rest hf hp, acceptCommand, hd]

theorem step_of_no_pending {s : State} (hf : s.faultRec = none) (hp : s.pending = []) : step s = .next s := by
  simp [step, hf, hp, idle]

theorem step_of_faulted {s : State} {r : FaultRecord} (h : s.faultRec = some r) : step s = .fault (.blockStopped r) := by
  simp [step, h]

theorem decode_of_decodeTableWord {nbits w : Nat} {i : Instr} (h : decodeTableWord nbits w = some i) :
    decode (tableWord nbits w) = .ok i := by
  unfold decodeTableWord at h
  split at h
  · cases hd : decode (tableWord nbits w) with
    | error e => simp [hd, Except.toOption] at h
    | ok j => simpa [hd, Except.toOption] using h
  · cases h

/-- Settles O39: the accepted word is the waiting one, and presenting a word puts it in front of those. -/
theorem stepRunsTheDecodedCommand : Obligations.StepRunsTheDecodedCommand := by
  refine ⟨fun s cmd rest i hf hp hd => step_of_decode hf hp hd, fun s w i hf hw => ?_,
    fun s hf hp => step_of_no_pending hf hp⟩
  have hp : (s.withFetchWord 32 w).pending = tableWord 32 w :: s.pending := rfl
  exact step_of_decode hf hp (decode_of_decodeTableWord hw)

/-! ### The legal bases of the window (R11) -/

/-- An address resolves to the selected switchable bank exactly from the second half of the window (R40). -/
theorem resolveAt_eq_selected_iff (ws : Nat) (sel : BankNo) (a : Addr) (hsel : sel ≠ 0) :
    (∃ o, resolveAt ws sel a = some ⟨sel, o⟩) ↔ ws + 4096 ≤ a.toNat ∧ a.toNat < ws + 8192 := by
  constructor
  · rintro ⟨o, h⟩
    rcases resolveAt_cases ws sel a _ h with ⟨-, -, hbank, -⟩ | ⟨hlo, hhi, -, -⟩
    · exact absurd hbank hsel
    · exact ⟨hlo, hhi⟩
  · rintro ⟨hlo, hhi⟩
    exact ⟨_, resolveAt_switchable ws sel a hlo hhi⟩

/-- Settles O20: the bounds 0xB011 and 0xC010 are those at which 0xD010 is in the second half of the window. -/
theorem windowStartIsLegalExactlyForTheExample : Obligations.WindowStartIsLegalExactlyForTheExample := by
  refine ⟨fun a => ?_, by decide, fun ws sel hsel hfits => ?_⟩
  · rw [inWindow_iff]
    omega
  · have hexample : (0xD010 : Addr).toNat = 0xD010 := rfl
    rw [resolveAt_eq_selected_iff ws sel 0xD010 hsel, hexample]
    simp only [Config.LegalWindowStart, Config.windowSize]
    omega

/-! ### Every command answers a next state and leaves the waiting words alone -/

theorem exec_next (i : Instr) (s : State) : ∃ t, exec i s = .next t ∧ t.pending = s.pending := by
  rcases exec_cases i s with ⟨v, h⟩ | ⟨p, v, h⟩ | ⟨a, d, p, -, -, h⟩ | ⟨d8, -, h⟩ | ⟨r, h, -⟩ <;>
    exact ⟨_, h, by simp⟩

/-- A step of a running block answers a next state, in which no word waits that did not wait before. -/
theorem step_next {s : State} (hf : s.faultRec = none) : ∃ t, step s = .next t ∧ t.pending ⊆ s.pending := by
  rcases step_cases s with ⟨r, hr, -⟩ | ⟨-, -, h⟩ | ⟨cmd, rest, e, -, hp, -, h⟩ | ⟨cmd, rest, i, -, hp, -, h⟩
  · simp [hf] at hr
  · exact ⟨s, h, List.Subset.refl _⟩
  · exact ⟨_, h, by simp [hp]⟩
  · obtain ⟨t, ht, htp⟩ := exec_next i (s.setPending rest)
    exact ⟨t, h.trans ht, by simp [htp, hp]⟩

/-- A run ends in a next state, or stops in a faulted block. -/
theorem run_next_or_stopped (n : Nat) (s : State) :
    (∃ t, Sys2Proof.core.run n s = .next t) ∨ ∃ r, Sys2Proof.core.run n s = .fault (.blockStopped r) := by
  induction n generalizing s with
  | zero => exact .inl ⟨s, rfl⟩
  | succ n ih =>
    cases hf : s.faultRec with
    | some r => exact .inr ⟨r, run_of_step_fault n s _ (step_of_faulted hf)⟩
    | none =>
      obtain ⟨t, hs, -⟩ := step_next hf
      rw [run_of_step_next n s t hs]
      exact ih t

/-! ### A part of the state that a kind of command does not see

Noninterference is stated with a function `f` that puts another value in one part of the state. The part is unseen by a kind of
command when `f` commutes with what those commands do. That they do not change the part either then needs no proof of its own:
it is the case of an `f` that puts in what is there already (`Unseen.run_fixed`). -/

/-- The outcome with `f` applied to its next state. -/
def mapNext (f : State → State) : Host.Outcome State Fault Refusal → Host.Outcome State Fault Refusal
  | .next s => .next (f s)
  | .fault r => .fault r
  | .refused r => .refused r

@[simp] theorem mapNext_next (f : State → State) (s : State) : mapNext f (.next s) = .next (f s) := rfl

/-- Every waiting word that is a command is a command of the kind `P`. -/
def AllWaiting (P : Instr → Prop) (s : State) : Prop := ∀ cmd ∈ s.pending, ∀ i, decode cmd = .ok i → P i

theorem AllWaiting.of_subset {P : Instr → Prop} {s t : State} (h : AllWaiting P s) (hsub : t.pending ⊆ s.pending) :
    AllWaiting P t := fun cmd hcmd => h cmd (hsub hcmd)

/-- The port and the commands of the kind `P` do not see what `f` changes. -/
structure Unseen (P : Instr → Prop) (f : State → State) : Prop where
  faultRec : ∀ s, (f s).faultRec = s.faultRec
  pending : ∀ s, (f s).pending = s.pending
  setPending : ∀ s cmds, (f s).setPending cmds = f (s.setPending cmds)
  takeFault : ∀ s r, (f s).takeFault r = f (s.takeFault r)
  exec : ∀ i s, P i → Machine.exec i (f s) = mapNext f (Machine.exec i s)

section
variable {P : Instr → Prop} {f : State → State}

theorem Unseen.step (hf : Unseen P f) {s : State} (hw : AllWaiting P s) :
    Machine.step (f s) = mapNext f (Machine.step s) := by
  rcases step_cases s with ⟨r, hr, h⟩ | ⟨hr, hp, h⟩ | ⟨cmd, rest, e, hr, hp, hd, h⟩ | ⟨cmd, rest, i, hr, hp, hd, h⟩
  all_goals
    rw [← hf.faultRec] at hr
    rw [h]
  · exact step_of_faulted hr
  · rw [← hf.pending] at hp
    exact step_of_no_pending hr hp
  · rw [← hf.pending] at hp
    rw [step_of_illegal hr hp hd, hf.setPending, hf.takeFault, mapNext_next]
  · have hi : P i := hw cmd (by simp [hp]) i hd
    rw [← hf.pending] at hp
    rw [step_of_decode hr hp hd, hf.setPending, hf.exec i _ hi]

theorem Unseen.run (hf : Unseen P f) (n : Nat) {s : State} (hw : AllWaiting P s) :
    Sys2Proof.core.run n (f s) = mapNext f (Sys2Proof.core.run n s) := by
  induction n generalizing s with
  | zero => rfl
  | succ n ih =>
    have hstep := hf.step hw
    cases hr : s.faultRec with
    | some r =>
      rw [step_of_faulted hr] at hstep
      rw [run_of_step_fault n s _ (step_of_faulted hr)]
      exact run_of_step_fault n (f s) _ hstep
    | none =>
      obtain ⟨t, hs, hsub⟩ := step_next hr
      rw [hs] at hstep
      rw [run_of_step_next n s t hs, run_of_step_next n (f s) (f t) hstep]
      exact ih (hw.of_subset hsub)

theorem Unseen.run_next (hf : Unseen P f) {n : Nat} {s t : State} (hw : AllWaiting P s)
    (h : Sys2Proof.core.run n s = .next t) : Sys2Proof.core.run n (f s) = .next (f t) :=
  (hf.run n hw).trans (congrArg (mapNext f) h)

theorem Unseen.run_fault (hf : Unseen P f) {n : Nat} {s : State} {r : Fault} (hw : AllWaiting P s)
    (h : Sys2Proof.core.run n s = .fault r) : Sys2Proof.core.run n (f s) = .fault r :=
  (hf.run n hw).trans (congrArg (mapNext f) h)

/-- A run that does not see a part of the state leaves it as it was. -/
theorem Unseen.run_fixed (hf : Unseen P f) {n : Nat} {s t : State} (hw : AllWaiting P s) (hs : f s = s)
    (h : Sys2Proof.core.run n s = .next t) : f t = t := by
  have hrun := hf.run_next hw h
  rw [hs, h] at hrun
  exact (Host.Outcome.next.inj hrun).symm

end

/-! ### The register file does not see the banked memory (R2) -/

/-- `s` with the banked memory of `b`: its bytes and its bank-select index. -/
def State.withBanksOf (s b : State) : State := { s with mem := b.mem, sel := b.sel }

section
variable (s b : State)

@[simp] theorem withBanksOf_sel : (s.withBanksOf b).sel = b.sel := rfl
@[simp] theorem withBanksOf_readByte (p : Place) : (s.withBanksOf b).readByte p = b.readByte p := rfl
@[simp] theorem withBanksOf_self : s.withBanksOf s = s := rfl

@[simp] theorem withBanksOf_readReg (q : Reg) : (s.withBanksOf b).readReg q = s.readReg q := by cases q <;> rfl
@[simp] theorem withBanksOf_readHi (p : Reg) : (s.withBanksOf b).readHi p = s.readHi p := by simp [State.readHi]
@[simp] theorem withBanksOf_readLo (p : Reg) : (s.withBanksOf b).readLo p = s.readLo p := by simp [State.readLo]
@[simp] theorem withBanksOf_getFlag (f : Flag) : (s.withBanksOf b).getFlag f = s.getFlag f := by simp [State.getFlag]

theorem withBanksOf_respond (v : Word) : (s.withBanksOf b).respond v = (s.respond v).withBanksOf b := rfl
theorem withBanksOf_takeFault (r : FaultRecord) : (s.withBanksOf b).takeFault r = (s.takeFault r).withBanksOf b := rfl
theorem withBanksOf_writeReg (p : Reg) (v : Word) : (s.withBanksOf b).writeReg p v = (s.writeReg p v).withBanksOf b := by
  cases p <;> rfl

end

/-- Two blocks that agree on all but the banked memory differ by a replacement of it. -/
theorem eq_withBanksOf {s u : State} (hregs : SameRegs s u) (hp : s.pending = u.pending) (hf : s.faultRec = u.faultRec)
    (hr : s.resp = u.resp) : s.withBanksOf u = u := by
  obtain ⟨haf, hbc, hde, hhl, hsp, hpc⟩ :
      u.af = s.af ∧ u.bc = s.bc ∧ u.de = s.de ∧ u.hl = s.hl ∧ u.sp = s.sp ∧ u.pc = s.pc :=
    ⟨hregs .af, hregs .bc, hregs .de, hregs .hl, hregs .sp, hregs .pc⟩
  cases u
  simp_all [State.withBanksOf]

theorem exec_withBanksOf (b : State) (i : Instr) (s : State) (hi : i.ofRegisterFile = true) :
    exec i (s.withBanksOf b) = mapNext (·.withBanksOf b) (exec i s) := by
  cases i with
  | rd16 p => simp [exec, execRd16, withBanksOf_respond]
  | wr16 p d16 => simp [exec, execWr16, withBanksOf_writeReg, withBanksOf_respond]
  | rdh p =>
    cases hp : p.isPair <;> simp [exec, execRdh, hp, takeIllegal, withBanksOf_takeFault, withBanksOf_respond]
  | wrh p d8 =>
    cases hp : p.isPair <;>
      simp [exec, execWrh, hp, takeIllegal, State.writeHi, withBanksOf_takeFault, withBanksOf_writeReg, withBanksOf_respond]
  | rdl p =>
    cases hp : p.isPair <;> simp [exec, execRdl, hp, takeIllegal, withBanksOf_takeFault, withBanksOf_respond]
  | wrl p d8 =>
    cases hp : p.isPair <;>
      simp [exec, execWrl, hp, takeIllegal, State.writeLo, withBanksOf_takeFault, withBanksOf_writeReg, withBanksOf_respond]
  | getf f => simp [exec, execGetf, withBanksOf_respond]
  | setf f v => simp [exec, execSetf, State.setFlag, withBanksOf_writeReg, withBanksOf_respond]
  | mrd | mwr | crd | cwr => cases hi

theorem banks_unseen (b : State) : Unseen (·.ofRegisterFile = true) (·.withBanksOf b) where
  faultRec _ := rfl
  pending _ := rfl
  setPending _ _ := rfl
  takeFault s r := withBanksOf_takeFault s b r
  exec i s hi := exec_withBanksOf b i s hi

/-- A run of register and flag commands keeps the banked memory. -/
theorem run_keeps_banks {n : Nat} {s t : State} (hw : AllWaiting (·.ofRegisterFile = true) s)
    (h : Sys2Proof.core.run n s = .next t) : SameBytes s t ∧ t.sel = s.sel := by
  have ht : t.withBanksOf s = t := (banks_unseen s).run_fixed hw (withBanksOf_self s) h
  exact ⟨fun p => by rw [← ht, withBanksOf_readByte], by rw [← ht, withBanksOf_sel]⟩

/-- Settles O54: the second run is the first with the banked memory replaced throughout. -/
theorem registerFileIgnoresBankedMemory : Obligations.RegisterFileIgnoresBankedMemory := by
  intro n s u hregs hp hf hr hw
  have hu : s.withBanksOf u = u := eq_withBanksOf hregs hp hf hr
  rcases run_next_or_stopped n s with ⟨t, hs⟩ | ⟨r, hs⟩
  · have hut : Sys2Proof.core.run n (s.withBanksOf u) = .next (t.withBanksOf u) := (banks_unseen u).run_next hw hs
    rw [hu] at hut
    have hwu : AllWaiting (·.ofRegisterFile = true) u := AllWaiting.of_subset hw (by simp [hp])
    obtain ⟨hbs, hsel⟩ := run_keeps_banks hw hs
    obtain ⟨hbu, hselu⟩ := run_keeps_banks hwu hut
    exact .inl ⟨t, _, hs, hut, fun q => withBanksOf_readReg t u q, rfl, hbs, hbu, hsel, hselu⟩
  · have hur : Sys2Proof.core.run n (s.withBanksOf u) = .fault (.blockStopped r) := (banks_unseen u).run_fault hw hs
    exact .inr ⟨r, hs, hu ▸ hur⟩

/-! ### The banked memory does not see the register file (R2) -/

/-- `s` with the registers of `r`. -/
def State.withRegsOf (s r : State) : State :=
  { s with af := r.af, bc := r.bc, de := r.de, hl := r.hl, sp := r.sp, pc := r.pc }

section
variable (s r : State)

@[simp] theorem withRegsOf_self : s.withRegsOf s = s := rfl

@[simp] theorem withRegsOf_readReg (q : Reg) : (s.withRegsOf r).readReg q = r.readReg q := by cases q <;> rfl

end

/-- Two blocks that agree on all but the registers differ by a replacement of them. -/
theorem eq_withRegsOf {s u : State} (hm : s.mem = u.mem) (hsel : s.sel = u.sel) (hp : s.pending = u.pending)
    (hf : s.faultRec = u.faultRec) (hr : s.resp = u.resp) : s.withRegsOf u = u := by
  simp only [State.withRegsOf, hm, hsel, hp, hf, hr]

/-- A memory command resolves its address by the bank-select index alone, which the replacement keeps. -/
theorem exec_withRegsOf (r : State) (i : Instr) (s : State) (hi : i.ofRegisterFile = false) :
    exec i (s.withRegsOf r) = mapNext (·.withRegsOf r) (exec i s) := by
  cases i with
  | mrd a =>
    show execMrd a (s.withRegsOf r) = mapNext _ (execMrd a s)
    cases h : s.resolve a with
    | none => rw [execMrd_outside s a h, execMrd_outside (s.withRegsOf r) a h]; rfl
    | some p => rw [execMrd_of_resolve s a p h, execMrd_of_resolve (s.withRegsOf r) a p h]; rfl
  | mwr a d =>
    show execMwr a d (s.withRegsOf r) = mapNext _ (execMwr a d s)
    cases h : s.resolve a with
    | none => rw [execMwr_outside s a d h, execMwr_outside (s.withRegsOf r) a d h]; rfl
    | some p => rw [execMwr_of_resolve s a d p h, execMwr_of_resolve (s.withRegsOf r) a d p h]; rfl
  | crd => rfl
  | cwr d8 => rfl
  | rd16 | wr16 | rdh | wrh | rdl | wrl | getf | setf => cases hi

theorem regs_unseen (r : State) : Unseen (·.ofRegisterFile = false) (·.withRegsOf r) where
  faultRec _ := rfl
  pending _ := rfl
  setPending _ _ := rfl
  takeFault _ _ := rfl
  exec i s hi := exec_withRegsOf r i s hi

/-- A run of memory and control commands keeps every register. -/
theorem run_keeps_regs {n : Nat} {s t : State} (hw : AllWaiting (·.ofRegisterFile = false) s)
    (h : Sys2Proof.core.run n s = .next t) : SameRegs s t := by
  have ht : t.withRegsOf s = t := (regs_unseen s).run_fixed hw (withRegsOf_self s) h
  exact fun q => by rw [← ht, withRegsOf_readReg]

/-- Settles O55: the second run is the first with the registers replaced throughout. -/
theorem bankedMemoryIgnoresRegisterFile : Obligations.BankedMemoryIgnoresRegisterFile := by
  intro n s u hm hsel hp hf hr hw
  have hu : s.withRegsOf u = u := eq_withRegsOf hm hsel hp hf hr
  rcases run_next_or_stopped n s with ⟨t, hs⟩ | ⟨r, hs⟩
  · have hut : Sys2Proof.core.run n (s.withRegsOf u) = .next (t.withRegsOf u) := (regs_unseen u).run_next hw hs
    rw [hu] at hut
    have hwu : AllWaiting (·.ofRegisterFile = false) u := AllWaiting.of_subset hw (by simp [hp])
    exact .inl ⟨t, _, hs, hut, rfl, rfl, rfl, run_keeps_regs hw hs, run_keeps_regs hwu hut⟩
  · have hur : Sys2Proof.core.run n (s.withRegsOf u) = .fault (.blockStopped r) := (regs_unseen u).run_fault hw hs
    exact .inr ⟨r, hs, hu ▸ hur⟩

end Sys2Proof.Machine
end

section
/-! Architectural state (10_state.md): the reset values (R36, R37), the invariant every step keeps (R30, R104), the commands that
change a register (R25, R27), the reserved nibble (R28) and that there is no hidden state (R33). -/

namespace Sys2Proof

/-! ### A decoded command is well-formed, and the word of a well-formed command decodes to it -/

theorem operands_wellFormed {op : Op} {cmd : Command} {i : Instr} (h : operands op cmd = some i) : i.WellFormed := by
  cases op with
  | rd16 | wr16 | getf | setf =>
    obtain ⟨_, -, rfl⟩ := Option.map_eq_some_iff.mp h
    rfl
  | rdh | wrh | rdl | wrl =>
    obtain ⟨p, hp, rfl⟩ := Option.map_eq_some_iff.mp h
    exact (Reg.pairOfSelector_eq_some _ p hp).2
  | mrd | mwr | crd | cwr =>
    cases h
    rfl

theorem operands_of_decode {cmd : Command} {i : Instr} (h : decode cmd = .ok i) : ∃ op, operands op cmd = some i := by
  unfold decode at h
  split at h
  · split at h <;> cases h
  next op _ =>
    split at h
    · cases h
    next j hj =>
      cases h
      exact ⟨op, hj⟩

theorem decode_wellFormed {cmd : Command} {i : Instr} (h : decode cmd = .ok i) : i.WellFormed := by
  obtain ⟨op, hop⟩ := operands_of_decode h
  exact operands_wellFormed hop

theorem rowOf_encode (i : Instr) : rowOf (encode i) = some i.op := by
  cases i with
  | rd16 p => exact Laws.EncodedRow.rd16 p
  | wr16 p d16 => exact Laws.EncodedRow.wr16 p d16
  | rdh p => exact Laws.EncodedRow.rdh p
  | wrh p d8 => exact Laws.EncodedRow.wrh p d8
  | rdl p => exact Laws.EncodedRow.rdl p
  | wrl p d8 => exact Laws.EncodedRow.wrl p d8
  | getf f => exact Laws.EncodedRow.getf f
  | setf f v => exact Laws.EncodedRow.setf f v
  | mrd a16 => exact Laws.EncodedRow.mrd a16
  | mwr a16 d8 => exact Laws.EncodedRow.mwr a16 d8
  | crd => exact Laws.EncodedRow.crd
  | cwr d8 => exact Laws.EncodedRow.cwr d8

theorem operands_encode {i : Instr} (hi : i.WellFormed) : operands i.op (encode i) = some i := by
  cases i with
  | rdh p | wrh p d8 | rdl p | wrl p d8 =>
    have hp : p.isPair = true := hi
    simp [operands, encode, Instr.op, hp]
  | rd16 | wr16 | getf | setf | mrd | mwr | crd | cwr => simp [operands, encode, Instr.op]

theorem decode_encode {i : Instr} (hi : i.WellFormed) : decode (encode i) = .ok i := by
  simp only [decode, rowOf_encode, operands_encode hi]

end Sys2Proof

namespace Sys2Proof.Machine

/-! ### A step that answers a next state -/

/-- Nothing was presented, or the word was no command, or a well-formed command ran. -/
theorem step_eq_next_cases {s t : State} (ht : step s = .next t) :
    t = s ∨
    (∃ cmd rest, (∀ i, decode cmd ≠ .ok i) ∧ t = (s.setPending rest).takeFault (.illegalCommand cmd)) ∨
    ∃ cmd rest i, s.faultRec = none ∧ s.pending = cmd :: rest ∧ decode cmd = .ok i ∧ i.WellFormed ∧
      exec i (s.setPending rest) = .next t := by
  rcases step_cases s with ⟨r, -, h⟩ | ⟨-, -, h⟩ | ⟨cmd, rest, e, -, -, hd, h⟩ | ⟨cmd, rest, i, hf, hp, hd, h⟩ <;>
    rw [h] at ht
  · cases ht
  · cases ht
    exact .inl rfl
  · cases ht
    exact .inr (.inl ⟨cmd, rest, fun i hi => by simp [hd] at hi, rfl⟩)
  · exact .inr (.inr ⟨cmd, rest, i, hf, hp, hd, decode_wellFormed hd, ht⟩)

/-! ### The invariant: each shared update keeps it, so every command does, so every step does -/

/-- R96: the coercion of 0 to 1. -/
theorem selOf_ne_zero (d8 : Byte) : selOf d8 ≠ 0 := by
  unfold selOf
  split
  · decide
  next h => exact h

section
variable {s t : State}

/-- The invariant speaks of the memory, `sel`, the fault record and the response alone. -/
theorem Inv.congr (h : Inv s) (hmem : t.mem = s.mem) (hsel : t.sel = s.sel) (hrec : t.faultRec = s.faultRec)
    (hresp : t.resp = s.resp) : Inv t where
  memory := hmem ▸ h.memory
  selected := hsel ▸ h.selected
  faulted := by simpa only [hrec, hresp] using h.faulted
  running := by simpa only [hrec, hresp] using h.running

theorem Inv.setPending (h : Inv s) (cmds : List Command) : Inv (s.setPending cmds) := h.congr rfl rfl rfl rfl

theorem Inv.writeReg (h : Inv s) (p : Reg) (v : Word) : Inv (s.writeReg p v) :=
  h.congr (by simp) (by simp) (by simp) (by simp)

theorem Inv.writeByte (h : Inv s) (p : Place) (v : Byte) : Inv (s.writeByte p v) where
  memory := writeByte_wf s p v h.memory
  selected := h.selected
  faulted := h.faulted
  running := h.running

theorem Inv.setSel (h : Inv s) {i : BankNo} (hi : i ≠ 0) : Inv (s.setSel i) where
  memory := h.memory
  selected := hi
  faulted := h.faulted
  running := h.running

/-- An OK response is true of a running block only. -/
theorem Inv.respond (h : Inv s) (hf : s.faultRec = none) (v : Word) : Inv (s.respond v) where
  memory := h.memory
  selected := h.selected
  faulted r hr := by simp [hf] at hr
  running a _ ha := by
    cases ha
    rfl

theorem Inv.takeFault (h : Inv s) {r : FaultRecord} (hr : r.Genuine) : Inv (s.takeFault r) where
  memory := h.memory
  selected := h.selected
  faulted r' hr' := by
    cases hr'
    exact ⟨hr, rfl⟩
  running a hf := by cases hf

/-- The word in the record of an OutOfRange fault is the encoding of the command, so it decodes to that command (R100). -/
theorem genuine_outOfRange {i : Instr} {a : Addr} (hi : i.WellFormed) (haddr : i.address = some a)
    (hw : inWindow a = false) : (FaultRecord.outOfRange (encode i) a).Genuine :=
  ⟨⟨i, decode_encode hi, haddr⟩, hw⟩

/-- A well-formed command takes no fault but a genuine OutOfRange. -/
theorem exec_keeps_inv {i : Instr} (h : Inv s) (hf : s.faultRec = none) (hi : i.WellFormed) (ht : exec i s = .next t) :
    Inv t := by
  rcases exec_cases i s with ⟨v, he⟩ | ⟨p, v, he⟩ | ⟨a, d, p, -, -, he⟩ | ⟨d8, -, he⟩ | ⟨r, he, hr⟩ <;>
    cases ht.symm.trans he
  · exact h.respond hf v
  · exact (h.writeReg p v).respond (by simp [hf]) _
  · exact (h.writeByte p d).respond hf _
  · exact (h.setSel (selOf_ne_zero d8)).respond hf _
  · rcases hr with ⟨a, -, rfl | ⟨d, rfl⟩, hw, rfl⟩ | ⟨hill, -⟩
    · exact h.takeFault (genuine_outOfRange hi rfl hw)
    · exact h.takeFault (genuine_outOfRange hi rfl hw)
    · exact absurd hi hill

theorem step_keeps_inv (h : Inv s) (ht : step s = .next t) : Inv t := by
  rcases step_eq_next_cases ht with rfl | ⟨cmd, rest, hill, rfl⟩ | ⟨cmd, rest, i, hf, -, -, hi, he⟩
  · exact h
  · exact (h.setPending rest).takeFault hill
  · exact exec_keeps_inv (h.setPending rest) hf hi he

end

/-- Settles O49: a word that decodes is a well-formed command, and each update a command makes keeps the invariant. -/
theorem stepKeepsTheInvariant : Obligations.StepKeepsTheInvariant := fun _ _ h ht => step_keeps_inv h ht

theorem reset_inv : Inv State.reset where
  memory := reset_mem_wf
  selected := by decide
  faulted _ h := by cases h
  running _ _ h := by cases h

/-- Settles O48: the empty list is in canonical form, and bank 1 is selected. -/
theorem resetMeetsTheInvariant : Obligations.ResetMeetsTheInvariant := ⟨reset_inv, reset_faultRec, reset_resp⟩

/-- Settles O37: an empty memory list reads as zero at every place. -/
theorem resetLeavesAllZeroAndBankOne : Obligations.ResetLeavesAllZeroAndBankOne :=
  ⟨reset_readReg, fun f => by simp [State.getFlag], by simp [State.reservedNibble], reset_readByte, reset_sel⟩

/-! ### The bank-select index (R30) -/

theorem exec_keeps_sel {i : Instr} {s t : State} (hi : ∀ d, i ≠ .cwr d) (h : exec i s = .next t) : t.sel = s.sel := by
  rcases exec_cases i s with ⟨v, he⟩ | ⟨p, v, he⟩ | ⟨a, d, p, -, -, he⟩ | ⟨d8, hcwr, -⟩ | ⟨r, he, -⟩
  case inr.inr.inr.inl => exact absurd hcwr (hi d8)
  all_goals
    cases h.symm.trans he
    simp

theorem exec_sel_ne_zero {i : Instr} {s t : State} (hs : s.sel ≠ 0) (h : exec i s = .next t) : t.sel ≠ 0 := by
  by_cases hi : ∃ d, i = .cwr d
  · obtain ⟨d, rfl⟩ := hi
    cases h
    exact selOf_ne_zero d
  · rwa [exec_keeps_sel (not_exists.mp hi) h]

theorem step_sel_ne_zero {s t : State} (hs : s.sel ≠ 0) (ht : step s = .next t) : t.sel ≠ 0 := by
  rcases step_eq_next_cases ht with rfl | ⟨cmd, rest, -, rfl⟩ | ⟨cmd, rest, i, -, -, -, -, he⟩
  · exact hs
  · exact hs
  · exact exec_sel_ne_zero (s := s.setPending rest) hs he

/-- Settles O50: a CWR selects a coerced index, and every other command leaves the index alone. -/
theorem selectedBankIsNeverZero : Obligations.SelectedBankIsNeverZero := by
  refine ⟨fun d s => ⟨_, rfl, ?_, ?_⟩, fun i s t hi h => exec_keeps_sel hi h, fun s t hs ht => step_sel_ne_zero hs ht⟩
  · have hpos : (selOf d).toNat ≠ 0 := fun h => selOf_ne_zero d (BitVec.eq_of_toNat_eq h)
    exact Nat.one_le_iff_ne_zero.mpr hpos
  · exact Nat.le_of_lt_succ (selOf d).isLt

/-! ### No hidden state (R33) -/

/-- A memory in canonical form lists no key beyond the storage of R29. -/
theorem Memory.read_of_storageSize_le {m : Memory} (h : Memory.wf m) {k : Nat} (hk : Config.storageSize ≤ k) :
    Memory.read m k = Config.fillByte := by
  induction m with
  | nil => rfl
  | cons c rest ih =>
    have hc : c.1 < Config.storageSize := (h.2 c (by simp)).1
    rw [Memory.read, if_neg (by omega), ih h.tail]

theorem mem_eq_of_sameBytes {s t : State} (hs : Memory.wf s.mem) (ht : Memory.wf t.mem) (h : SameBytes s t) :
    t.mem = s.mem := by
  refine Memory.eq_of_read_eq _ _ ht hs (fun k => ?_)
  by_cases hk : k < Config.storageSize
  · obtain ⟨p, rfl⟩ := Place.exists_key hk
    exact h p
  · rw [Memory.read_of_storageSize_le ht (Nat.le_of_not_lt hk), Memory.read_of_storageSize_le hs (Nat.le_of_not_lt hk)]

/-- Settles O51: canonical memories that read alike are equal, so replacing the banks of `s` by those of `t` changes nothing. -/
theorem noHiddenState : Obligations.NoHiddenState := by
  intro s t hs ht hregs hbytes hsel hresp hrec hpending
  have hmem : t.mem = s.mem := mem_eq_of_sameBytes hs.memory ht.memory hbytes
  calc t = s.withBanksOf t := (eq_withBanksOf hregs hpending.symm hrec.symm hresp.symm).symm
    _ = s.withBanksOf s := by simp only [State.withBanksOf, hmem, hsel]
    _ = s := withBanksOf_self s

/-! ### What a command and a step leave in a register -/

theorem exec_keeps_regs {i : Instr} {s t : State} (hi : i.ofRegisterFile = false) (h : exec i s = .next t) :
    SameRegs s t := by
  have ht := exec_withRegsOf s i s hi
  rw [withRegsOf_self, h, mapNext_next] at ht
  intro q
  rw [Host.Outcome.next.inj ht, withRegsOf_readReg]

/-- An update of one register by a function of what it held, seen at any register. -/
theorem writeReg_map_readReg (s : State) (p q : Reg) (f : Word → Word) :
    (s.writeReg p (f (s.readReg p))).readReg q = if p = q then f (s.readReg q) else s.readReg q := by
  by_cases h : p = q
  · subst h
    simp
  · rw [writeReg_readReg_of_ne s p q _ (Ne.symm h), if_neg h]

/-- A well-formed command leaves in each register what `Instr.regAfter` says. -/
theorem exec_readReg {i : Instr} {s t : State} (hi : i.WellFormed) (h : exec i s = .next t) (q : Reg) :
    t.readReg q = i.regAfter q (s.readReg q) := by
  cases i with
  | rd16 p =>
    cases h
    exact respond_readReg s _ q
  | wr16 p d16 =>
    cases h
    rw [respond_readReg]
    exact writeReg_map_readReg s p q (fun _ => d16)
  | rdh p =>
    cases h.symm.trans (execRdh_pair s p hi)
    exact respond_readReg s _ q
  | wrh p d8 =>
    cases h.symm.trans (execWrh_pair s p d8 hi)
    rw [respond_readReg, State.writeHi, State.readLo, joinLanes_high]
    exact writeReg_map_readReg s p q (fun w => (d8.setWidth 16 <<< 8) ||| (w &&& 0x00FF#16))
  | rdl p =>
    cases h.symm.trans (execRdl_pair s p hi)
    exact respond_readReg s _ q
  | wrl p d8 =>
    cases h.symm.trans (execWrl_pair s p d8 hi)
    rw [respond_readReg, State.writeLo, State.readHi, joinLanes_low]
    exact writeReg_map_readReg s p q (fun w => (w &&& 0xFF00#16) ||| d8.setWidth 16)
  | getf f =>
    cases h
    exact respond_readReg s _ q
  | setf f v =>
    cases h
    rw [respond_readReg]
    exact writeReg_map_readReg s .af q (fun w => flagWord w f v)
  | mrd | mwr | crd | cwr => exact exec_keeps_regs rfl h q

/-- A step that changes a register runs a well-formed command, which changes it as `Instr.regAfter` says. -/
theorem step_readReg_of_ne {s t : State} (ht : step s = .next t) {q : Reg} (hne : t.readReg q ≠ s.readReg q) :
    ∃ cmd rest i, s.pending = cmd :: rest ∧ decode cmd = .ok i ∧ i.WellFormed ∧
      t.readReg q = i.regAfter q (s.readReg q) := by
  rcases step_eq_next_cases ht with rfl | ⟨cmd, rest, -, rfl⟩ | ⟨cmd, rest, i, -, hp, hd, hi, he⟩
  · exact absurd rfl hne
  · exact absurd (by simp) hne
  · exact ⟨cmd, rest, i, hp, hd, hi, by simpa using exec_readReg hi he q⟩

/-! ### PC and SP (R25) -/

/-- SP and PC have no lanes and hold no flags: a command that changes one of them is its WR16. -/
theorem eq_wr16_of_regAfter_ne {q : Reg} (hq : q.isPair = false) {i : Instr} (hi : i.WellFormed) {v : Word}
    (h : i.regAfter q v ≠ v) : i = .wr16 q (i.regAfter q v) := by
  cases i with
  | wr16 p d16 =>
    by_cases hp : p = q
    · simp [Instr.regAfter, hp]
    · simp [Instr.regAfter, hp] at h
  | wrh p d8 | wrl p d8 =>
    have hp : p ≠ q := by
      rintro rfl
      exact Bool.false_ne_true (hq.symm.trans hi)
    simp [Instr.regAfter, hp] at h
  | setf f b =>
    have hp : Reg.af ≠ q := by
      rintro rfl
      cases hq
    simp [Instr.regAfter, hp] at h
  | rd16 | rdh | rdl | getf | mrd | mwr | crd | cwr => exact absurd rfl h

theorem step_wr16_of_readReg_ne {s t : State} (ht : step s = .next t) {q : Reg} (hq : q.isPair = false)
    (hne : t.readReg q ≠ s.readReg q) :
    ∃ cmd rest, s.pending = cmd :: rest ∧ decode cmd = .ok (.wr16 q (t.readReg q)) := by
  obtain ⟨cmd, rest, i, hp, hd, hi, hreg⟩ := step_readReg_of_ne ht hne
  rw [hreg] at hne ⊢
  exact ⟨cmd, rest, hp, hd.trans (congrArg _ (eq_wr16_of_regAfter_ne hq hi hne))⟩

/-- Settles O10: PC and SP are the two registers that are no pair. -/
theorem pcAndSpChangeOnlyByWr16 : Obligations.PcAndSpChangeOnlyByWr16 := fun _ _ ht =>
  ⟨step_wr16_of_readReg_ne (q := .pc) ht rfl, step_wr16_of_readReg_ne (q := .sp) ht rfl⟩

/-! ### The flag sub-register (R27, R28) -/

/-- A command that changes the low lane of AF is WR16 AF, WRL AF or SETF. -/
theorem flagWriter_of_loLane_ne {i : Instr} {v : Word} (h : loLane (i.regAfter .af v) ≠ loLane v) :
    (∃ w, i = .wr16 .af w) ∨ (∃ d, i = .wrl .af d) ∨ ∃ f b, i = .setf f b := by
  cases i with
  | wr16 p d16 =>
    by_cases hp : p = .af
    · exact .inl ⟨d16, by rw [hp]⟩
    · simp [Instr.regAfter, hp] at h
  | wrh p d8 =>
    by_cases hp : p = .af
    · simp [Instr.regAfter, hp, ← joinLanes_high] at h
    · simp [Instr.regAfter, hp] at h
  | wrl p d8 =>
    by_cases hp : p = .af
    · exact .inr (.inl ⟨d8, by rw [hp]⟩)
    · simp [Instr.regAfter, hp] at h
  | setf f b => exact .inr (.inr ⟨f, b, rfl⟩)
  | rd16 | rdh | rdl | getf | mrd | mwr | crd | cwr => exact absurd rfl h

/-- Settles O14: only these three change the low lane, and SETF changes one bit of it. -/
theorem flagRegisterHasThreeWriters : Obligations.FlagRegisterHasThreeWriters := by
  intro s t ht hlo
  have hne : t.readReg .af ≠ s.readReg .af := fun h => hlo (congrArg loLane h)
  obtain ⟨cmd, rest, i, hp, hd, -, hreg⟩ := step_readReg_of_ne ht hne
  refine ⟨cmd, rest, hp, ?_⟩
  rw [State.readLo, State.readLo, hreg] at hlo
  rcases flagWriter_of_loLane_ne hlo with ⟨w, rfl⟩ | ⟨d, rfl⟩ | ⟨f, b, rfl⟩
  · exact .inl ⟨w, hd⟩
  · exact .inr (.inl ⟨d, hd⟩)
  · refine .inr (.inr ⟨f, b, hd, fun g hg => ?_⟩)
    have hflag : t.readReg .af = flagWord (s.readReg .af) f b := hreg
    have hbit : g.bit ≠ f.bit := fun h => hg (flagBit_inj h)
    rw [State.getFlag, State.getFlag, hflag, flagWord_getLsbD, if_neg hbit]

theorem lowNibble_loLane (w : Word) : (loLane w).extractLsb' 0 4 = w.extractLsb' 0 4 := by
  ext i hi
  simp [loLane]

theorem lowNibble_joinLanes (h l : Byte) : (joinLanes h l).extractLsb' 0 4 = l.extractLsb' 0 4 := by
  rw [← lowNibble_loLane, loLane_joinLanes]

/-- Settles O9: the nibble is part of the word that WR16 stores and of the lane that WRL stores. -/
theorem reservedNibbleIsStored : Obligations.ReservedNibbleIsStored := by
  intro s
  refine ⟨fun v => ⟨_, _, _, rfl, ?_, execRdl_pair _ .af rfl, ?_, rfl, ?_⟩,
    fun d => ⟨_, _, _, execWrl_pair s .af d rfl, ?_, execRdl_pair _ .af rfl, ?_, rfl, ?_⟩⟩
  · simp [State.reservedNibble]
  · simp [State.readLo, zext16_loLane]
  · simp
  · simp [State.reservedNibble, State.writeLo, lowNibble_joinLanes]
  · simp [State.readLo, State.writeLo, zext16]
  · simp [State.writeLo, State.readHi, joinLanes_low]

end Sys2Proof.Machine
end

section
/-! Banked memory (20_memory.md): every read sees the last write (R53), the banks are disjoint storage (R43), each reachable byte has
one address (R42), reads are silent and writes idempotent (R50). -/

namespace Sys2Proof.Machine

/-! ### What a command leaves in the banked memory -/

section
variable {i : Instr} {s t : State}

/-- The frame of every command: a byte that no MWR resolves to reads as before. -/
theorem exec_readByte_of_ne {p : Place} (h : exec i s = .next t) (hne : ∀ a d, i = .mwr a d → s.resolve a ≠ some p) :
    t.readByte p = s.readByte p := by
  rcases exec_cases i s with ⟨v, he⟩ | ⟨q, v, he⟩ | ⟨a, d, q, hi, hr, he⟩ | ⟨d8, -, he⟩ | ⟨r, he, -⟩ <;>
    cases h.symm.trans he
  case inr.inr.inl =>
    have hpq : p ≠ q := fun hpq => hne a d hi (hpq ▸ hr)
    rw [respond_readByte, writeByte_readByte_of_ne s q p d hpq]
  all_goals simp

/-- Every command leaves in each byte what `Instr.byteAfter` says. -/
theorem exec_readByte (hm : Memory.wf s.mem) (h : exec i s = .next t) (p : Place) :
    t.readByte p = i.byteAfter p s.sel (s.readByte p) := by
  cases i with
  | mwr a d =>
    by_cases hr : s.resolve a = some p
    · cases h.symm.trans (execMwr_of_resolve s a d p hr)
      have hafter : (Instr.mwr a d).byteAfter p s.sel (s.readByte p) = d := if_pos hr
      rw [hafter, respond_readByte, writeByte_readByte_self s p d hm]
    · have hafter : (Instr.mwr a d).byteAfter p s.sel (s.readByte p) = s.readByte p := if_neg hr
      rw [hafter]
      exact exec_readByte_of_ne h (fun b e hi => by cases hi; exact hr)
  | rd16 | wr16 | rdh | wrh | rdl | wrl | getf | setf | mrd | crd | cwr =>
    exact exec_readByte_of_ne h (fun _ _ hi => by cases hi)

theorem exec_keeps_wf (hm : Memory.wf s.mem) (h : exec i s = .next t) : Memory.wf t.mem := by
  rcases exec_cases i s with ⟨v, he⟩ | ⟨q, v, he⟩ | ⟨a, d, q, -, -, he⟩ | ⟨d8, -, he⟩ | ⟨r, he, -⟩ <;>
    cases h.symm.trans he
  case inr.inr.inl => exact writeByte_wf s q d hm
  all_goals simpa using hm

/-- Every command leaves the index that `Instr.selAfter` says. -/
theorem exec_sel (h : exec i s = .next t) : t.sel = i.selAfter s.sel := by
  cases i with
  | cwr d8 =>
    cases h
    exact selOf_eq_mod d8
  | rd16 | wr16 | rdh | wrh | rdl | wrl | getf | setf | mrd | mwr | crd =>
    exact exec_keeps_sel (fun _ hi => by cases hi) h

/-- A well-formed command that meets the contract takes no fault (R100, R101). -/
theorem exec_keeps_faultRec (hi : i.WellFormed) (hc : i.inContract = true) (h : exec i s = .next t) :
    t.faultRec = s.faultRec := by
  rcases exec_cases i s with ⟨v, he⟩ | ⟨q, v, he⟩ | ⟨a, d, q, -, -, he⟩ | ⟨d8, -, he⟩ | ⟨r, he, hr⟩ <;>
    cases h.symm.trans he
  case inr.inr.inr.inr =>
    rcases hr with ⟨a, -, rfl | ⟨d, rfl⟩, hw, -⟩ | ⟨hill, -⟩
    · exact absurd (hw.symm.trans hc) Bool.false_ne_true
    · exact absurd (hw.symm.trans hc) Bool.false_ne_true
    · exact absurd hi hill
  all_goals simp

end

/-! ### Every read sees the last write (R53) -/

/-- `t` holds in every byte, every register and `sel` what the commands' own formulas, folded over `is`, give from `s`. -/
structure HoldsWrites (is : List Instr) (s t : State) : Prop where
  bytes : ∀ p, t.readByte p = byteAfterAll p s.sel (s.readByte p) is
  regs : ∀ q, t.readReg q = regAfterAll q (s.readReg q) is
  sel : t.sel = selAfterAll s.sel is

theorem HoldsWrites.nil (s : State) : HoldsWrites [] s s := ⟨fun _ => rfl, fun _ => rfl, rfl⟩

theorem HoldsWrites.cons {i : Instr} {is : List Instr} {s u t : State} (hi : HoldsWrites [i] s u)
    (his : HoldsWrites is u t) : HoldsWrites (i :: is) s t where
  bytes p := by
    rw [his.bytes, hi.bytes, hi.sel]
    rfl
  regs q := by
    rw [his.regs, hi.regs]
    rfl
  sel := by
    rw [his.sel, hi.sel]
    rfl

theorem exec_holdsWrites {i : Instr} {s t : State} (hm : Memory.wf s.mem) (hi : i.WellFormed) (h : exec i s = .next t) :
    HoldsWrites [i] s t where
  bytes := exec_readByte hm h
  regs := exec_readReg hi h
  sel := exec_sel h

/-- The issuer's next command, if correct, is accepted without a fault, and does its writes. -/
theorem step_of_correct {i : Instr} {rest : List Command} {s : State} (hm : Memory.wf s.mem) (hf : s.faultRec = none)
    (hp : s.pending = encode i :: rest) (hi : i.WellFormed) (hc : i.inContract = true) :
    ∃ t, step s = .next t ∧ t.faultRec = none ∧ t.pending = rest ∧ Memory.wf t.mem ∧ HoldsWrites [i] s t := by
  obtain ⟨t, ht, htp⟩ := exec_next i (s.setPending rest)
  obtain ⟨hbytes, hregs, hsel⟩ := exec_holdsWrites (s := s.setPending rest) hm hi ht
  simp only [setPending_readByte, setPending_readReg, setPending_sel] at hbytes hregs hsel
  exact ⟨t, (step_of_decode hf hp (decode_encode hi)).trans ht, (exec_keeps_faultRec hi hc ht).trans hf, htp,
    exec_keeps_wf (s := s.setPending rest) hm ht, hbytes, hregs, hsel⟩

/-- A run of correct commands takes no fault and does their writes in order. -/
theorem run_holdsWrites (is : List Instr) {s : State} (hm : Memory.wf s.mem) (hf : s.faultRec = none)
    (hp : s.pending = is.map encode) (hc : ∀ i ∈ is, i.WellFormed ∧ i.inContract = true) :
    ∃ t, RunsSafely is.length s t ∧ HoldsWrites is s t := by
  induction is generalizing s with
  | nil => exact ⟨s, ⟨run_zero s, hf⟩, .nil s⟩
  | cons i is ih =>
    obtain ⟨hi, his⟩ := List.forall_mem_cons.mp hc
    obtain ⟨u, hstep, huf, hup, hum, hu⟩ := step_of_correct hm hf hp hi.1 hi.2
    obtain ⟨t, ⟨hrun, htf⟩, ht⟩ := ih hum huf hup his
    exact ⟨t, ⟨(run_of_step_next _ s u hstep).trans hrun, htf⟩, hu.cons ht⟩

/-- R31: five ones above the index. -/
theorem zext16_controlValue (s : State) : zext16 s.controlValue = 0x00F8#16 ||| s.sel.setWidth 16 := by
  have h : ∀ i : BankNo, zext16 (0b11111#5 ++ i) = 0x00F8#16 ||| i.setWidth 16 := by decide
  exact h s.sel

/-- Settles O53: by induction on the commands, a run does their writes in order; each read answers from what it reads. -/
theorem everyReadSeesTheLastWrite : Obligations.EveryReadSeesTheLastWrite := by
  intro is s hm hf hp hc
  obtain ⟨t, hrun, hbytes, hregs, hsel⟩ := run_holdsWrites is hm hf hp hc
  refine ⟨t, hrun, hbytes, hregs, hsel, fun a p ha => ?_, fun q => ?_, fun q hq => ?_, fun q hq => ?_, fun f => ?_, ?_⟩
  · rw [← hsel] at ha
    exact ⟨_, execMrd_of_resolve t a p ha, by rw [respond_resp, hbytes, zext16]⟩
  · exact ⟨_, rfl, by rw [respond_resp, hregs]⟩
  · exact ⟨_, execRdh_pair t q hq, by rw [respond_resp, State.readHi, zext16_hiLane, hregs]⟩
  · exact ⟨_, execRdl_pair t q hq, by rw [respond_resp, State.readLo, zext16_loLane, hregs]⟩
  · exact ⟨_, rfl, by rw [respond_resp, bitWord_eq, State.getFlag, hregs]⟩
  · exact ⟨_, rfl, by rw [respond_resp, zext16_controlValue, hsel]⟩

/-! ### The banks are disjoint storage (R43) -/

/-- MWR, then CWR, then MRD of the same address: the byte answered is the one the address resolves to after the CWR. -/
theorem mrd_after_mwr_cwr (s : State) {a : Addr} {p q : Place} (x v : Byte) (hp : s.resolve a = some p)
    (hq : resolveAt Config.windowStart (selOf v) a = some q) :
    ∃ t u w, exec (.mwr a x) s = .next t ∧ exec (.cwr v) t = .next u ∧ exec (.mrd a) u = .next w ∧
      w.resp = some ⟨.ok, ((s.writeByte p x).readByte q).setWidth 16⟩ :=
  ⟨_, _, _, execMwr_of_resolve s a x p hp, rfl, execMrd_of_resolve _ a q hq, rfl⟩

/-- Settles O19: the fixed half resolves to bank 0 before and after the CWR, the switchable half to another bank. -/
theorem banksAreIndependent : Obligations.BanksAreIndependent := by
  refine ⟨fun a d8 s t p q hr hne h => ?_, fun v s => ⟨_, rfl, fun b => by simp⟩, fun a x v s hm hlo hhi => ?_,
    fun a x v s hlo hhi hne => ?_⟩
  · refine exec_readByte_of_ne h (fun b e hi hb => hne ?_)
    cases hi
    exact Option.some.inj (hb.symm.trans hr)
  · have hfixed (sel : BankNo) := resolveAt_fixed 0xC000 sel a hlo hhi
    have hseq := mrd_after_mwr_cwr s x v (hfixed s.sel) (hfixed (selOf v))
    rwa [writeByte_readByte_self s _ x hm] at hseq
  · have hswitch (sel : BankNo) := resolveAt_switchable 0xC000 sel a hlo hhi
    have hseq := mrd_after_mwr_cwr s x v (hswitch s.sel) (hswitch (selOf v))
    rwa [writeByte_readByte_of_ne s _ _ x (fun h => hne (congrArg Place.bank h))] at hseq

/-! ### Which bytes are reached, and from where (R42) -/

/-- Only bank 0 and the selected bank are reached (R40). -/
theorem bank_of_resolveAt {ws : Nat} {sel : BankNo} {a : Addr} {p : Place} (h : resolveAt ws sel a = some p) :
    p.bank = 0 ∨ p.bank = sel := by
  rcases resolveAt_cases ws sel a p h with ⟨-, -, hbank, -⟩ | ⟨-, -, hbank, -⟩
  · exact .inl hbank
  · exact .inr hbank

/-- Two addresses of one byte are equal: its bank says which half they are in, its offset which address of it they are. -/
theorem resolveAt_inj {ws : Nat} {sel : BankNo} {a b : Addr} {p : Place} (hsel : sel ≠ 0) (ha : resolveAt ws sel a = some p)
    (hb : resolveAt ws sel b = some p) : b = a := by
  apply BitVec.eq_of_toNat_eq
  rcases resolveAt_cases ws sel a p ha with ⟨hlo, -, hbank, hoff⟩ | ⟨hlo, -, hbank, hoff⟩ <;>
    rcases resolveAt_cases ws sel b p hb with ⟨hlo', -, hbank', hoff'⟩ | ⟨hlo', -, hbank', hoff'⟩
  · omega
  · exact absurd (hbank'.symm.trans hbank) hsel
  · exact absurd (hbank.symm.trans hbank') hsel
  · omega

theorem exists_addr {n : Nat} (h : n < 0x10000) : ∃ a : Addr, a.toNat = n :=
  ⟨BitVec.ofNatLT n h, BitVec.toNat_ofNatLT n h⟩

/-- In a window that fits the address space, every byte of bank 0 and of the selected bank is reached. -/
theorem exists_resolveAt {ws : Nat} (hfits : ws + Config.windowSize ≤ 0x10000) {sel : BankNo} {p : Place}
    (hp : p.bank = 0 ∨ p.bank = sel) : ∃ a, resolveAt ws sel a = some p := by
  obtain ⟨b, o⟩ := p
  have ho : o.toNat < 4096 := o.isLt
  simp only [Config.windowSize] at hfits
  rcases hp with rfl | rfl
  · obtain ⟨a, ha⟩ := exists_addr (n := ws + o.toNat) (by omega)
    refine ⟨a, (resolveAt_fixed ws sel a (by omega) (by omega)).trans ?_⟩
    rw [ha, Nat.add_sub_cancel_left, BitVec.ofNat_toNat, BitVec.setWidth_eq]
  · obtain ⟨a, ha⟩ := exists_addr (n := ws + 4096 + o.toNat) (by omega)
    refine ⟨a, (resolveAt_switchable ws b a (by omega) (by omega)).trans ?_⟩
    rw [ha, Nat.add_sub_cancel_left, BitVec.ofNat_toNat, BitVec.setWidth_eq]

/-- Settles O21: the two halves of the window each list one bank, and they are different banks. -/
theorem everyReachableByteHasOneAddress : Obligations.EveryReachableByteHasOneAddress := by
  intro ws sel p hws hsel
  refine ⟨fun hp => ?_, fun hzero hother a ha => (bank_of_resolveAt ha).elim hzero hother⟩
  obtain ⟨a, ha⟩ := exists_resolveAt hws.2.2 hp
  exact ⟨a, ha, fun b hb => resolveAt_inj hsel ha hb⟩

/-- Settles O22: an MWR resolves to bank 0 or to the selected bank. -/
theorem unselectedBanksKeepTheirBytes : Obligations.UnselectedBanksKeepTheirBytes := by
  intro s t p ht hzero hother
  rcases step_eq_next_cases ht with rfl | ⟨cmd, rest, -, rfl⟩ | ⟨cmd, rest, i, -, -, -, -, he⟩
  · rfl
  · simp
  · have hunreached (a : Addr) : (s.setPending rest).resolve a ≠ some p := fun ha =>
      (bank_of_resolveAt ha).elim hzero hother
    exact exec_readByte_of_ne (s := s.setPending rest) he (fun a _ _ => hunreached a)

/-! ### Writes of what is there (R50) -/

section
variable (s : State)

/-- R88: setting a flag to what it is. -/
theorem flagWord_getLsbD_self (w : Word) (f : Flag) : flagWord w f (w.getLsbD f.bit) = w := by
  refine BitVec.eq_of_getLsbD_eq (fun j _ => ?_)
  rw [flagWord_getLsbD]
  split
  next h => rw [h]
  next => rfl

theorem selOf_setWidth (i : BankNo) (hi : i ≠ 0) : selOf (i.setWidth 8) = i := by
  revert i
  decide

theorem exec_wr16_same (p : Reg) : exec (.wr16 p (s.readReg p)) s = .next (s.respond 0x0000) := by
  simp [exec, execWr16]

theorem exec_wrh_same (p : Reg) (hp : p.isPair = true) : exec (.wrh p (s.readHi p)) s = .next (s.respond 0x0000) := by
  refine (execWrh_pair s p _ hp).trans ?_
  simp [State.writeHi, State.readHi, State.readLo]

theorem exec_wrl_same (p : Reg) (hp : p.isPair = true) : exec (.wrl p (s.readLo p)) s = .next (s.respond 0x0000) := by
  refine (execWrl_pair s p _ hp).trans ?_
  simp [State.writeLo, State.readHi, State.readLo]

theorem exec_setf_same (f : Flag) : exec (.setf f (s.getFlag f)) s = .next (s.respond 0x0000) := by
  simp [exec, execSetf, State.setFlag, State.getFlag, flagWord_getLsbD_self]

theorem exec_mwr_same (hm : Memory.wf s.mem) {a : Addr} {p : Place} (hr : s.resolve a = some p) :
    exec (.mwr a (s.readByte p)) s = .next (s.respond 0x0000) := by
  refine (execMwr_of_resolve s a _ p hr).trans ?_
  rw [writeByte_readByte_eq_self s p hm]

theorem exec_cwr_same (hs : s.sel ≠ 0) : exec (.cwr (s.sel.setWidth 8)) s = .next (s.respond 0x0000) := by
  simp [exec, execCwr, selOf_setWidth s.sel hs, State.setSel]

end

/-! ### A command done twice (R50)

A command does not see the response port. So a read done again answers the same, and a write done again, whose value is there
already, changes the response only, to what it is. -/

section
variable {i : Instr} {s t : State}

/-- No command reads the response port, and each overwrites it. -/
theorem exec_respond (i : Instr) (s : State) (v : Word) : exec i (s.respond v) = exec i s := by
  cases i with
  | rd16 p | wr16 p d16 | rdh p | wrh p d8 | rdl p | wrl p d8 => cases p <;> rfl
  | mwr a d =>
    show execMwr a d (s.respond v) = execMwr a d s
    cases hr : s.resolve a with
    | none => rw [execMwr_outside s a d hr, execMwr_outside (s.respond v) a d hr]; rfl
    | some p => rw [execMwr_of_resolve s a d p hr, execMwr_of_resolve (s.respond v) a d p hr]; rfl
  | getf | setf | mrd | crd | cwr => rfl

/-- A lane command of SP or PC takes the fault of its word (R66, log entry 9). -/
theorem exec_of_not_wellFormed (hi : ¬ i.WellFormed) (s : State) :
    exec i s = .next (s.takeFault (.illegalCommand (encode i))) := by
  cases i with
  | rdh p | wrh p d8 | rdl p | wrl p d8 =>
    have hp : ¬ p.isPair = true := hi
    simp [exec, execRdh, execWrh, execRdl, execWrl, takeIllegal, hp]
  | rd16 | wr16 | getf | setf | mrd | mwr | crd | cwr => exact absurd rfl hi

/-- A read command answers and changes nothing else, or takes a fault, and the same one in every state with that bank
selected. -/
theorem exec_read_cases (hread : i.isWrite = false) (s : State) :
    (∃ v, exec i s = .next (s.respond v)) ∨ ∃ r, ∀ u : State, u.sel = s.sel → exec i u = .next (u.takeFault r) := by
  by_cases hi : i.WellFormed
  · cases i with
    | rd16 | getf | crd => exact .inl ⟨_, rfl⟩
    | rdh p => exact .inl ⟨_, execRdh_pair s p hi⟩
    | rdl p => exact .inl ⟨_, execRdl_pair s p hi⟩
    | mrd a =>
      cases hr : s.resolve a with
      | none => exact .inr ⟨_, fun u hu => execMrd_outside u a ((resolve_eq_of_sel_eq s u a hu).trans hr)⟩
      | some p => exact .inl ⟨_, execMrd_of_resolve s a p hr⟩
    | wr16 | wrh | wrl | setf | mwr | cwr => cases hread
  · exact .inr ⟨_, fun u _ => exec_of_not_wellFormed hi u⟩

theorem FaultRecord.status_ne_ok (r : FaultRecord) : r.status ≠ .ok := by cases r <;> nofun

/-- A read command that answers OK changes the response only. -/
theorem eq_respond_of_read {v : Word} (hread : i.isWrite = false) (h : exec i s = .next t) (hr : t.resp = some ⟨.ok, v⟩) :
    t = s.respond v := by
  rcases exec_read_cases hread s with ⟨w, he⟩ | ⟨r, he⟩
  · cases h.symm.trans he
    cases hr
    rfl
  · cases h.symm.trans (he s rfl)
    exact absurd (congrArg Response.status (Option.some.inj hr)) r.status_ne_ok

theorem exec_read_twice (hread : i.isWrite = false) (h : exec i s = .next t) : exec i t = .next t := by
  rcases exec_read_cases hread s with ⟨v, he⟩ | ⟨r, he⟩
  · cases h.symm.trans he
    exact (exec_respond i s v).trans h
  · cases h.symm.trans (he s rfl)
    exact he (s.takeFault r) rfl

theorem exec_mwr_twice {a : Addr} {d : Byte} (hm : Memory.wf s.mem) (h : exec (.mwr a d) s = .next t) :
    exec (.mwr a d) t = .next t := by
  cases hr : s.resolve a with
  | none =>
    cases h.symm.trans (execMwr_outside s a d hr)
    exact execMwr_outside (s.takeFault _) a d hr
  | some p =>
    cases h.symm.trans (execMwr_of_resolve s a d p hr)
    have hsame := exec_mwr_same (s.writeByte p d) (writeByte_wf s p d hm) hr
    rw [writeByte_readByte_self s p d hm] at hsame
    exact (exec_respond _ _ _).trans hsame

theorem exec_twice (hm : Memory.wf s.mem) (h : exec i s = .next t) : exec i t = .next t := by
  by_cases hi : i.WellFormed
  · cases i with
    | rd16 | rdh | rdl | getf | mrd | crd => exact exec_read_twice rfl h
    | wr16 p d16 =>
      cases h
      rw [exec_respond]
      simpa using exec_wr16_same (s.writeReg p d16) p
    | wrh p d8 =>
      cases h.symm.trans (execWrh_pair s p d8 hi)
      rw [exec_respond]
      simpa [State.readHi, State.writeHi] using exec_wrh_same (s.writeHi p d8) p hi
    | wrl p d8 =>
      cases h.symm.trans (execWrl_pair s p d8 hi)
      rw [exec_respond]
      simpa [State.readLo, State.writeLo] using exec_wrl_same (s.writeLo p d8) p hi
    | setf f v =>
      cases h
      rw [exec_respond]
      simpa [State.getFlag, State.setFlag] using exec_setf_same (s.setFlag f v) f
    | mwr a d => exact exec_mwr_twice hm h
    | cwr d8 =>
      cases h
      rfl
  · cases h.symm.trans (exec_of_not_wellFormed hi s)
    exact exec_of_not_wellFormed hi _

end

/-- Settles O47: a read faults or only answers, and a write leaves its value where the same write finds it. -/
theorem readsAreSilentAndWritesIdempotent : Obligations.ReadsAreSilentAndWritesIdempotent := by
  refine ⟨fun i s t v hread h hr => eq_respond_of_read hread h hr, fun i s t hm h => exec_twice hm h,
    fun p s => exec_wr16_same s p, fun p s hp => ⟨exec_wrh_same s p hp, exec_wrl_same s p hp⟩,
    fun f s => exec_setf_same s f, fun a v s hm hv => ?_, fun s hs => exec_cwr_same s hs⟩
  obtain ⟨p, hr, rfl⟩ := Option.map_eq_some_iff.mp hv
  exact exec_mwr_same s hm hr

end Sys2Proof.Machine
end

section
/-! Encoding (30_encoding.md R61 to R72): a word of a row of the opcode table is the format of that row with the word's own fields
in it, so decoding and encoding are inverse to each other. -/

namespace Sys2Proof

/-! ### Rows of the opcode table -/

/-- A field that a row's mask covers is the field of the row's pattern (R69). -/
theorem Row.field_of_matchesWord {r : Row} {cmd : Command} (h : r.matchesWord cmd = true) {lo w : Nat}
    (hcover : r.mask.extractLsb' lo w = BitVec.allOnes w) : cmd.extractLsb' lo w = r.pattern.extractLsb' lo w := by
  rw [← eq_of_beq h, BitVec.extractLsb'_and, hcover, BitVec.and_allOnes]

/-- The row of the opcode table that carries an operation (R63). -/
def Op.row (op : Op) : Row := (opcodeTable.find? (·.op == op)).getD ⟨op, 0, 0⟩

theorem Op.row_mem (op : Op) : op.row ∈ opcodeTable := by cases op <;> decide

theorem Op.row_op (op : Op) : op.row.op = op := by cases op <;> decide

theorem eq_row_of_mem : ∀ r ∈ opcodeTable, r = r.op.row := by decide

theorem matchesWord_of_rowOf {cmd : Command} {op : Op} (h : rowOf cmd = some op) : op.row.matchesWord cmd = true := by
  obtain ⟨r, hr, rfl⟩ := Option.map_eq_some_iff.mp h
  have hm := List.find?_some hr
  rwa [eq_row_of_mem r (List.mem_of_find?_eq_some hr)] at hm

/-- R63: the op values of the rows are different. -/
theorem row_eq_of_opField :
    ∀ r ∈ opcodeTable, ∀ r' ∈ opcodeTable, opField r.pattern = opField r'.pattern → r = r' := by decide

/-- R63: the op values of the rows are 0x0 to 0xB. -/
theorem opField_row_lt : ∀ r ∈ opcodeTable, opField r.pattern < 0xC#4 := by decide

/-- Settles O35: a matching row has the op value of the word, and no two rows have the same. -/
theorem atMostOneRowMatches : Obligations.AtMostOneRowMatches := fun cmd r hr r' hr' h h' =>
  row_eq_of_opField r hr r' hr' <|
    (Laws.opField_of_matchesWord r hr cmd h).trans (Laws.opField_of_matchesWord r' hr' cmd h').symm

/-- The op value of a word says of which row alone it can be. -/
theorem eq_op_of_opField {op op' : Op} {cmd : Command} (hm : op'.row.matchesWord cmd = true)
    (hop : opField cmd = opField op.row.pattern) : op' = op := by
  have hrows : op'.row = op.row :=
    row_eq_of_opField _ op'.row_mem _ op.row_mem ((Laws.opField_of_matchesWord _ op'.row_mem cmd hm).trans hop)
  rw [← op'.row_op, hrows, op.row_op]

/-! ### The answers of `decode` -/

theorem decode_of_rowOf_none {cmd : Command} (h : rowOf cmd = none) :
    decode cmd = if 0xC#4 ≤ opField cmd then .error .reservedOperation else .error .mustBeZero := by
  simp [decode, h]

theorem decode_selector {cmd : Command} {op : Op} (hrow : rowOf cmd = some op) (h : operands op cmd = none) :
    decode cmd = .error .selector := by
  simp [decode, hrow, h]

theorem decode_ok {cmd : Command} {i : Instr} (h : decode cmd = .ok i) :
    ∃ op : Op, op.row.matchesWord cmd = true ∧ operands op cmd = some i := by
  unfold decode at h
  split at h
  · split at h <;> cases h
  next op hrow =>
    split at h
    · cases h
    next j hj =>
      cases h
      exact ⟨op, matchesWord_of_rowOf hrow, hj⟩

theorem exists_error_of_not_ok {cmd : Command} (h : ∀ i, decode cmd ≠ .ok i) : ∃ e, decode cmd = .error e := by
  cases hd : decode cmd with
  | error e => exact ⟨e, rfl⟩
  | ok i => exact absurd hd (h i)

/-- Settles O34: no row has such an op value, so no row matches the word. -/
theorem reservedOperationsAreRefused : Obligations.ReservedOperationsAreRefused := by
  intro cmd hop
  have hres : 0xC#4 ≤ opField cmd := hop
  cases hrow : rowOf cmd with
  | none => rw [decode_of_rowOf_none hrow, if_pos hres]
  | some op =>
    have hlt := opField_row_lt op.row op.row_mem
    rw [Laws.opField_of_matchesWord _ op.row_mem cmd (matchesWord_of_rowOf hrow)] at hlt
    exact absurd hlt (BitVec.not_lt.mpr hres)

/-- A word with the op value of a row, and a 1 in a field that the row keeps 0, is of no row (R67). -/
theorem decode_mustBeZero {cmd : Command} (op : Op) (hop : opField cmd = opField op.row.pattern) {lo w : Nat}
    (h : cmd.extractLsb' lo w ≠ 0) (hcover : op.row.mask.extractLsb' lo w = BitVec.allOnes w)
    (hzero : op.row.pattern.extractLsb' lo w = 0) : decode cmd = .error .mustBeZero := by
  cases hrow : rowOf cmd with
  | none =>
    have hlt : opField cmd < 0xC#4 := hop ▸ opField_row_lt op.row op.row_mem
    rw [decode_of_rowOf_none hrow, if_neg (BitVec.not_le.mpr hlt)]
  | some op' =>
    have hm := matchesWord_of_rowOf hrow
    obtain rfl := eq_op_of_opField hm hop
    exact absurd ((Row.field_of_matchesWord hm hcover).trans hzero) h

/-- Settles O33: each clause names a field that the mask of its operation's row covers and its pattern keeps 0. -/
theorem mustBeZeroBitsAreRefused : Obligations.MustBeZeroBitsAreRefused := by
  intro cmd
  refine ⟨?_, fun hop h => ?_, ?_, fun hop h => ?_, ?_, fun hop h => ?_, fun hop h => ?_, fun hop h => ?_⟩
  · rintro (hop | hop | hop | hop) h
    · exact decode_mustBeZero .rd16 hop h (by decide) (by decide)
    · exact decode_mustBeZero .rdh hop h (by decide) (by decide)
    · exact decode_mustBeZero .rdl hop h (by decide) (by decide)
    · exact decode_mustBeZero .getf hop h (by decide) (by decide)
  · exact decode_mustBeZero .wr16 hop h (by decide) (by decide)
  · rintro (hop | hop) h
    · exact decode_mustBeZero .wrh hop h (by decide) (by decide)
    · exact decode_mustBeZero .wrl hop h (by decide) (by decide)
  · exact decode_mustBeZero .setf hop h (by decide) (by decide)
  · rintro hop (h | h)
    · exact decode_mustBeZero .mrd hop h (by decide) (by decide)
    · exact decode_mustBeZero .mrd hop h (by decide) (by decide)
  · exact decode_mustBeZero .mwr hop h (by decide) (by decide)
  · exact decode_mustBeZero .crd hop h (by decide) (by decide)
  · exact decode_mustBeZero .cwr hop h (by decide) (by decide)

/-! ### A word is its format with its own fields (R61, R62) -/

section
variable {op : BitVec 4} {cmd : Command}

/-- R61: `v` as a field of one bit. -/
theorem ofBool_vField : BitVec.ofBool (vField cmd) = cmd.extractLsb' 0 1 := by
  ext i hi
  obtain rfl : i = 0 := by omega
  simp [vField]

theorem formatRR_fields (hop : opField cmd = op) (h : cmd.extractLsb' 0 24 = 0#24) :
    formatRR op (sField cmd) = cmd := by
  rw [formatRR, ← hop, ← h, opField, sField]
  simp (disch := rfl) only [BitVec.extractLsb'_append_extractLsb'_eq_extractLsb']
  exact BitVec.extractLsb'_eq_self

theorem formatRW_fields (hop : opField cmd = op) (h : cmd.extractLsb' 16 8 = 0#8) :
    formatRW op (sField cmd) (d16Field cmd) = cmd := by
  rw [formatRW, ← hop, ← h, opField, sField, d16Field]
  simp (disch := rfl) only [BitVec.extractLsb'_append_extractLsb'_eq_extractLsb']
  exact BitVec.extractLsb'_eq_self

theorem formatRB_fields (hop : opField cmd = op) (h : cmd.extractLsb' 8 16 = 0#16) :
    formatRB op (sField cmd) (d8Field cmd) = cmd := by
  rw [formatRB, ← hop, ← h, opField, sField, d8Field]
  simp (disch := rfl) only [BitVec.extractLsb'_append_extractLsb'_eq_extractLsb']
  exact BitVec.extractLsb'_eq_self

theorem formatFS_fields (hop : opField cmd = op) (h : cmd.extractLsb' 1 23 = 0#23) :
    formatFS op (sField cmd) (vField cmd) = cmd := by
  rw [formatFS, ← hop, ← h, opField, sField, ofBool_vField]
  simp (disch := rfl) only [BitVec.extractLsb'_append_extractLsb'_eq_extractLsb']
  exact BitVec.extractLsb'_eq_self

theorem formatMR_fields (hop : opField cmd = op) (hs : cmd.extractLsb' 24 4 = 0#4) (h : cmd.extractLsb' 0 8 = 0#8) :
    formatMR op (a16Field cmd) = cmd := by
  rw [formatMR, ← hop, ← hs, ← h, opField, a16Field]
  simp (disch := rfl) only [BitVec.extractLsb'_append_extractLsb'_eq_extractLsb']
  exact BitVec.extractLsb'_eq_self

theorem formatMW_fields (hop : opField cmd = op) (hs : cmd.extractLsb' 24 4 = 0#4) :
    formatMW op (a16Field cmd) (d8Field cmd) = cmd := by
  rw [formatMW, ← hop, ← hs, opField, a16Field, d8Field]
  simp (disch := rfl) only [BitVec.extractLsb'_append_extractLsb'_eq_extractLsb']
  exact BitVec.extractLsb'_eq_self

theorem formatCR_fields (hop : opField cmd = op) (h : cmd.extractLsb' 0 28 = 0#28) : formatCR op = cmd := by
  rw [formatCR, ← hop, ← h, opField]
  simp (disch := rfl) only [BitVec.extractLsb'_append_extractLsb'_eq_extractLsb']
  exact BitVec.extractLsb'_eq_self

theorem formatCW_fields (hop : opField cmd = op) (h : cmd.extractLsb' 8 20 = 0#20) :
    formatCW op (d8Field cmd) = cmd := by
  rw [formatCW, ← hop, ← h, opField, d8Field]
  simp (disch := rfl) only [BitVec.extractLsb'_append_extractLsb'_eq_extractLsb']
  exact BitVec.extractLsb'_eq_self

end
/-! ### Decoding and encoding are inverse (R69, R71) -/

/-- The row of a word fixes its operation and the zeros of its format, and the operands are read from its other fields. -/
theorem encode_of_operands {op : Op} {cmd : Command} (hm : op.row.matchesWord cmd = true) {i : Instr}
    (h : operands op cmd = some i) : encode i = cmd := by
  have field {lo w : Nat} (hcover : op.row.mask.extractLsb' lo w = BitVec.allOnes w) := Row.field_of_matchesWord hm hcover
  cases op with
  | rd16 =>
    obtain ⟨p, hp, rfl⟩ := Option.map_eq_some_iff.mp h
    rw [encode, ← Reg.ofSelector_eq_some _ p hp]
    exact formatRR_fields (field (by decide)) (field (by decide))
  | wr16 =>
    obtain ⟨p, hp, rfl⟩ := Option.map_eq_some_iff.mp h
    rw [encode, ← Reg.ofSelector_eq_some _ p hp]
    exact formatRW_fields (field (by decide)) (field (by decide))
  | rdh | rdl =>
    obtain ⟨p, hp, rfl⟩ := Option.map_eq_some_iff.mp h
    rw [encode, ← (Reg.pairOfSelector_eq_some _ p hp).1]
    exact formatRR_fields (field (by decide)) (field (by decide))
  | wrh | wrl =>
    obtain ⟨p, hp, rfl⟩ := Option.map_eq_some_iff.mp h
    rw [encode, ← (Reg.pairOfSelector_eq_some _ p hp).1]
    exact formatRB_fields (field (by decide)) (field (by decide))
  | getf =>
    obtain ⟨f, hf, rfl⟩ := Option.map_eq_some_iff.mp h
    rw [encode, ← Flag.ofSelector_eq_some _ f hf]
    exact formatRR_fields (field (by decide)) (field (by decide))
  | setf =>
    obtain ⟨f, hf, rfl⟩ := Option.map_eq_some_iff.mp h
    rw [encode, ← Flag.ofSelector_eq_some _ f hf]
    exact formatFS_fields (field (by decide)) (field (by decide))
  | mrd =>
    cases h
    exact formatMR_fields (field (by decide)) (field (by decide)) (field (by decide))
  | mwr =>
    cases h
    exact formatMW_fields (field (by decide)) (field (by decide))
  | crd =>
    cases h
    exact formatCR_fields (field (by decide)) (field (by decide))
  | cwr =>
    cases h
    exact formatCW_fields (field (by decide)) (field (by decide))

theorem encode_of_decode {cmd : Command} {i : Instr} (h : decode cmd = .ok i) : encode i = cmd := by
  obtain ⟨op, hm, hi⟩ := decode_ok h
  exact encode_of_operands hm hi

/-- Settles O30: the word is the format of its row with its own fields, and the operands are these fields. -/
theorem encodeOfDecode : Obligations.EncodeOfDecode := fun _ _ h => ⟨encode_of_decode h, decode_wellFormed h⟩

theorem decode_eq_ok_iff {cmd : Command} {i : Instr} : decode cmd = .ok i ↔ encode i = cmd ∧ i.WellFormed := by
  refine ⟨fun h => ⟨encode_of_decode h, decode_wellFormed h⟩, ?_⟩
  rintro ⟨rfl, hi⟩
  exact decode_encode hi

theorem decode_encode_of_not_wellFormed {i : Instr} (hi : ¬ i.WellFormed) : decode (encode i) = .error .selector := by
  refine decode_selector (rowOf_encode i) ?_
  cases i with
  | rdh p | wrh p d8 | rdl p | wrl p d8 =>
    have hp : ¬ p.isPair = true := hi
    simp [operands, encode, Instr.op, hp]
  | rd16 | wr16 | getf | setf | mrd | mwr | crd | cwr => exact absurd rfl hi

/-- Settles O29: the word of a command is of its operation's row; its operands are read back, but for a lane of SP or PC. -/
theorem decodeOfEncode : Obligations.DecodeOfEncode := fun _ => ⟨decode_encode, decode_encode_of_not_wellFormed⟩

/-- Settles O28: each of the six is the encoding of its command. -/
theorem writtenOutWordsDecode : Obligations.WrittenOutWordsDecode :=
  ⟨decode_encode (i := .rd16 .hl) rfl, decode_encode (i := .wr16 .bc 0x1234) rfl, decode_encode (i := .wrh .hl 0xAB) rfl,
    decode_encode (i := .setf .z true) rfl, decode_encode (i := .mwr 0xD010 0x07) rfl, decode_encode (i := .cwr 0xF5) rfl⟩

/-! ### Selectors (R64 to R66) -/

theorem Reg.selector_le (p : Reg) : p.selector.toNat ≤ 5 := by cases p <;> decide

theorem Reg.isPair_iff (p : Reg) : p.isPair = true ↔ p.selector.toNat ≤ 3 := by cases p <;> decide

theorem Flag.selector_range (f : Flag) : 4 ≤ f.selector.toNat ∧ f.selector.toNat ≤ 7 := by cases f <;> decide

theorem Reg.ofSelector_eq_some_iff (s : Selector) (p : Reg) : Reg.ofSelector s = some p ↔ p.selector = s := by
  refine ⟨fun h => (Reg.ofSelector_eq_some s p h).symm, ?_⟩
  rintro rfl
  exact Reg.ofSelector_selector p

theorem Reg.pairOfSelector_eq_some_iff (s : Selector) (p : Reg) :
    Reg.pairOfSelector s = some p ↔ p.selector = s ∧ s.toNat ≤ 3 := by
  rw [Reg.pairOfSelector, Option.filter_eq_some_iff, Reg.ofSelector_eq_some_iff, Reg.isPair_iff]
  exact and_congr_right (by rintro rfl; rfl)

theorem Flag.ofSelector_eq_some_iff (s : Selector) (f : Flag) : Flag.ofSelector s = some f ↔ f.selector = s := by
  refine ⟨fun h => (Flag.ofSelector_eq_some s f h).symm, ?_⟩
  rintro rfl
  exact Flag.ofSelector_selector f

theorem Reg.ofSelector_eq_none {s : Selector} (h : 5 < s.toNat) : Reg.ofSelector s = none := by
  refine Option.eq_none_iff_forall_ne_some.mpr (fun p hp => ?_)
  rw [Reg.ofSelector_eq_some s p hp] at h
  exact absurd p.selector_le (Nat.not_le.mpr h)

theorem Reg.pairOfSelector_eq_none {s : Selector} (h : 3 < s.toNat) : Reg.pairOfSelector s = none :=
  Option.eq_none_iff_forall_ne_some.mpr fun p hp =>
    absurd ((Reg.pairOfSelector_eq_some_iff s p).mp hp).2 (Nat.not_le.mpr h)

theorem Flag.ofSelector_eq_none {s : Selector} (h : s.toNat < 4 ∨ 7 < s.toNat) : Flag.ofSelector s = none := by
  refine Option.eq_none_iff_forall_ne_some.mpr (fun f hf => ?_)
  rw [Flag.ofSelector_eq_some s f hf] at h
  have := f.selector_range
  omega

/-- A word whose operation reads no operands from it is no command (R66). -/
theorem exists_error_of_operands_none {cmd : Command} (op : Op) (hop : opField cmd = opField op.row.pattern)
    (h : operands op cmd = none) : ∃ e, decode cmd = .error e := by
  refine exists_error_of_not_ok (fun i hi => ?_)
  obtain ⟨op', hm, hi'⟩ := decode_ok hi
  rw [eq_op_of_opField hm hop, h] at hi'
  cases hi'

/-- Settles O32: the selector names no register, no pair or no flag, so the operation of the word reads no operands. -/
theorem illegalSelectorsAreRefused : Obligations.IllegalSelectorsAreRefused := by
  intro cmd
  refine ⟨?_, ?_, ?_⟩
  · intro hop hs
    have hnone : Reg.ofSelector (sField cmd) = none := Reg.ofSelector_eq_none hs
    rcases hop with hop | hop
    · exact exists_error_of_operands_none .rd16 hop (by simp [operands, hnone])
    · exact exists_error_of_operands_none .wr16 hop (by simp [operands, hnone])
  · intro hop hs
    have hnone : Reg.pairOfSelector (sField cmd) = none := Reg.pairOfSelector_eq_none hs
    rcases hop with hop | hop | hop | hop
    · exact exists_error_of_operands_none .rdh hop (by simp [operands, hnone])
    · exact exists_error_of_operands_none .wrh hop (by simp [operands, hnone])
    · exact exists_error_of_operands_none .rdl hop (by simp [operands, hnone])
    · exact exists_error_of_operands_none .wrl hop (by simp [operands, hnone])
  · intro hop hs
    have hnone : Flag.ofSelector (sField cmd) = none := Flag.ofSelector_eq_none hs
    rcases hop with hop | hop
    · exact exists_error_of_operands_none .getf hop (by simp [operands, hnone])
    · exact exists_error_of_operands_none .setf hop (by simp [operands, hnone])

/-! ### The rows of words with any selector -/

section
variable (op : BitVec 4) (s : Selector)

/-! A mask covers its format's op value and zeros, not its selector and data (R62). -/

theorem formatRR_and_mask : formatRR op s &&& 0xF0FFFFFF = formatRR op 0 := by
  have h : (op ++ s ++ 0#24) &&& (0xF#4 ++ 0#4 ++ 0xFFFFFF#24) = op ++ 0#4 ++ 0#24 := by
    have hop : op &&& 0xF#4 = op := BitVec.and_allOnes
    simp only [BitVec.and_append, hop, BitVec.and_zero, BitVec.zero_and]
  exact h

theorem formatRW_and_mask (d16 : Word) : formatRW op s d16 &&& 0xF0FF0000 = formatRW op 0 0 := by
  have h : (op ++ s ++ 0#8 ++ d16) &&& (0xF#4 ++ 0#4 ++ 0xFF#8 ++ 0#16) = op ++ 0#4 ++ 0#8 ++ 0#16 := by
    have hop : op &&& 0xF#4 = op := BitVec.and_allOnes
    simp only [BitVec.and_append, hop, BitVec.and_zero, BitVec.zero_and]
  exact h

theorem formatRB_and_mask (d8 : Byte) : formatRB op s d8 &&& 0xF0FFFF00 = formatRB op 0 0 := by
  have h : (op ++ s ++ 0#16 ++ d8) &&& (0xF#4 ++ 0#4 ++ 0xFFFF#16 ++ 0#8) = op ++ 0#4 ++ 0#16 ++ 0#8 := by
    have hop : op &&& 0xF#4 = op := BitVec.and_allOnes
    simp only [BitVec.and_append, hop, BitVec.and_zero, BitVec.zero_and]
  exact h

theorem formatFS_and_mask (v : Bool) : formatFS op s v &&& 0xF0FFFFFE = formatFS op 0 false := by
  have h : (op ++ s ++ 0#23 ++ BitVec.ofBool v) &&& (0xF#4 ++ 0#4 ++ 0x7FFFFF#23 ++ 0#1) = op ++ 0#4 ++ 0#23 ++ 0#1 := by
    have hop : op &&& 0xF#4 = op := BitVec.and_allOnes
    simp only [BitVec.and_append, hop, BitVec.and_zero, BitVec.zero_and]
  exact h

end

/-- A word whose bits under its operation's mask are the pattern, and whose operation reads no operands from it, is refused
for its selector (R66, R69). -/
theorem decode_selector_of_mask {cmd : Command} (op : Op) (hm : cmd &&& op.row.mask = op.row.pattern)
    (h : operands op cmd = none) : decode cmd = .error .selector := by
  have hrow := Laws.rowOf_of_matchesWord op.row op.row_mem cmd (beq_iff_eq.mpr hm)
  rw [op.row_op] at hrow
  exact decode_selector hrow h

section
variable {s : Selector}

theorem decode_rd16_selector (h : 5 < s.toNat) : decode (formatRR 0x0 s) = .error .selector :=
  decode_selector_of_mask .rd16 (formatRR_and_mask _ s) (by simp [operands, Reg.ofSelector_eq_none h])
theorem decode_wr16_selector (h : 5 < s.toNat) (d16 : Word) : decode (formatRW 0x1 s d16) = .error .selector :=
  decode_selector_of_mask .wr16 (formatRW_and_mask _ s d16) (by simp [operands, Reg.ofSelector_eq_none h])
theorem decode_rdh_selector (h : 3 < s.toNat) : decode (formatRR 0x2 s) = .error .selector :=
  decode_selector_of_mask .rdh (formatRR_and_mask _ s) (by simp [operands, Reg.pairOfSelector_eq_none h])
theorem decode_wrh_selector (h : 3 < s.toNat) (d8 : Byte) : decode (formatRB 0x3 s d8) = .error .selector :=
  decode_selector_of_mask .wrh (formatRB_and_mask _ s d8) (by simp [operands, Reg.pairOfSelector_eq_none h])
theorem decode_rdl_selector (h : 3 < s.toNat) : decode (formatRR 0x4 s) = .error .selector :=
  decode_selector_of_mask .rdl (formatRR_and_mask _ s) (by simp [operands, Reg.pairOfSelector_eq_none h])
theorem decode_wrl_selector (h : 3 < s.toNat) (d8 : Byte) : decode (formatRB 0x5 s d8) = .error .selector :=
  decode_selector_of_mask .wrl (formatRB_and_mask _ s d8) (by simp [operands, Reg.pairOfSelector_eq_none h])
theorem decode_getf_selector (h : s.toNat < 4 ∨ 7 < s.toNat) : decode (formatRR 0x6 s) = .error .selector :=
  decode_selector_of_mask .getf (formatRR_and_mask _ s) (by simp [operands, Flag.ofSelector_eq_none h])
theorem decode_setf_selector (h : s.toNat < 4 ∨ 7 < s.toNat) (v : Bool) : decode (formatFS 0x7 s v) = .error .selector :=
  decode_selector_of_mask .setf (formatFS_and_mask _ s v) (by simp [operands, Flag.ofSelector_eq_none h])

end

/-- A word with an `s` field is the encoding of a command exactly when that field is the command's selector, if the command's
word is the format with that selector. -/
theorem encode_eq_iff_selector {i : Instr} {t : Selector} {format : Selector → Command} (henc : encode i = format t)
    (hfield : ∀ u, sField (format u) = u) (s : Selector) : encode i = format s ↔ t = s := by
  rw [henc]
  exact ⟨fun h => by rw [← hfield t, h, hfield], congrArg format⟩

/-- A command is what a word of its format decodes to exactly when the word's selector is its own. -/
theorem decode_format_iff {i : Instr} (hi : i.WellFormed) {t : Selector} {format : Selector → Command}
    (henc : encode i = format t) (hfield : ∀ u, sField (format u) = u) (s : Selector) :
    decode (format s) = .ok i ↔ t = s := by
  rw [decode_eq_ok_iff, encode_eq_iff_selector henc hfield, and_iff_left hi]

/-- The same for a lane command, which takes the selectors of the pairs (R64). -/
theorem decode_lane_format_iff {i : Instr} {p : Reg} (hi : i.WellFormed ↔ p.isPair = true) {format : Selector → Command}
    (henc : encode i = format p.selector) (hfield : ∀ u, sField (format u) = u) (s : Selector) :
    decode (format s) = .ok i ↔ p.selector = s ∧ s.toNat ≤ 3 := by
  rw [decode_eq_ok_iff, encode_eq_iff_selector henc hfield, hi, p.isPair_iff]
  exact and_congr_right (by rintro rfl; rfl)

/-- Settles O31: a selector is read back from its word, and no other command has that word. -/
theorem selectorTables : Obligations.SelectorTables := by
  refine ⟨by decide, by decide, fun s p => ⟨Reg.ofSelector_eq_some_iff s p, Reg.pairOfSelector_eq_some_iff s p⟩,
    Flag.ofSelector_eq_some_iff, fun s d16 => ⟨fun p => ?_, fun p => ?_, fun h => ?_⟩,
    fun s d8 => ⟨fun p => ?_, fun p => ?_, fun p => ?_, fun p => ?_, fun h => ?_⟩,
    fun s v => ⟨fun f => ?_, fun f => ?_, fun h => ?_⟩⟩
  · exact decode_format_iff rfl (format := formatRR 0x0) rfl (sField_formatRR _) s
  · exact decode_format_iff rfl (format := (formatRW 0x1 · d16)) rfl (sField_formatRW _ · d16) s
  · exact ⟨decode_rd16_selector h, decode_wr16_selector h d16⟩
  · exact decode_lane_format_iff Iff.rfl (format := formatRR 0x2) rfl (sField_formatRR _) s
  · exact decode_lane_format_iff Iff.rfl (format := (formatRB 0x3 · d8)) rfl (sField_formatRB _ · d8) s
  · exact decode_lane_format_iff Iff.rfl (format := formatRR 0x4) rfl (sField_formatRR _) s
  · exact decode_lane_format_iff Iff.rfl (format := (formatRB 0x5 · d8)) rfl (sField_formatRB _ · d8) s
  · exact ⟨decode_rdh_selector h, decode_wrh_selector h d8, decode_rdl_selector h, decode_wrl_selector h d8⟩
  · exact decode_format_iff rfl (format := formatRR 0x6) rfl (sField_formatRR _) s
  · exact decode_format_iff rfl (format := (formatFS 0x7 · v)) rfl (sField_formatFS _ · v) s
  · exact ⟨decode_getf_selector h, decode_setf_selector h v⟩

end Sys2Proof
end

section
/-! The answer of the port (30_encoding.md R59, R60), and lane commands of SP and PC (log entry 9). -/

namespace Sys2Proof.Machine

section
variable {i : Instr} {s t : State}

/-- A running block answers a command with OK, unless the command takes a fault, whose answer has no data (R60). -/
theorem exec_answer (hf : s.faultRec = none) (h : exec i s = .next t) :
    ∃ a, t.resp = some a ∧ (a.status = .ok ↔ t.faultRec = none) ∧ (a.status ≠ .ok → a.rdata = 0x0000) := by
  rcases exec_cases i s with ⟨v, he⟩ | ⟨p, v, he⟩ | ⟨a, d, p, -, -, he⟩ | ⟨d8, -, he⟩ | ⟨r, he, -⟩ <;>
    cases h.symm.trans he
  case inr.inr.inr.inr => exact ⟨_, rfl, by simp [r.status_ne_ok], fun _ => rfl⟩
  all_goals exact ⟨_, rfl, by simp [hf], fun hne => absurd rfl hne⟩

/-- The answer to a write command has no data (R60). -/
theorem exec_write_rdata (hw : i.isWrite = true) (h : exec i s = .next t) : ∃ st, t.resp = some ⟨st, 0x0000⟩ := by
  by_cases hi : i.WellFormed
  · cases i with
    | wr16 | setf | cwr =>
      cases h
      exact ⟨_, rfl⟩
    | wrh p d8 =>
      cases h.symm.trans (execWrh_pair s p d8 hi)
      exact ⟨_, rfl⟩
    | wrl p d8 =>
      cases h.symm.trans (execWrl_pair s p d8 hi)
      exact ⟨_, rfl⟩
    | mwr a d =>
      cases hr : s.resolve a with
      | none =>
        cases h.symm.trans (execMwr_outside s a d hr)
        exact ⟨_, rfl⟩
      | some p =>
        cases h.symm.trans (execMwr_of_resolve s a d p hr)
        exact ⟨_, rfl⟩
    | rd16 | rdh | rdl | getf | mrd | crd => cases hw
  · cases h.symm.trans (exec_of_not_wellFormed hi s)
    exact ⟨_, rfl⟩

end

/-- Settles O46: an illegal word takes a fault, and a command answers in every case of its meaning. -/
theorem everyCommandIsAnsweredInItsStep : Obligations.EveryCommandIsAnsweredInItsStep := by
  refine ⟨⟨rfl, rfl, rfl, fun st => by cases st <;> decide⟩, fun s cmd rest hf hp => ?_⟩
  cases hd : decode cmd with
  | error e =>
    exact ⟨_, _, step_of_illegal hf hp hd, rfl, rfl, by simp [FaultRecord.status], fun _ => rfl, fun i hi => by cases hi⟩
  | ok i =>
    obtain ⟨t, ht, htp⟩ := exec_next i (s.setPending rest)
    obtain ⟨a, hresp, hok, hbad⟩ := exec_answer (s := s.setPending rest) hf ht
    refine ⟨t, a, (step_of_decode hf hp hd).trans ht, htp, hresp, hok, hbad, fun j hj hw => ?_⟩
    cases hj
    obtain ⟨st, hst⟩ := exec_write_rdata hw ht
    cases hresp.symm.trans hst
    rfl

/-- The meaning of an ill-formed command is the fault of its word, with the frame of R104 (log entry 9). -/
theorem exec_onlyFaults_of_not_wellFormed {i : Instr} (hi : ¬ i.WellFormed) (s : State) :
    ∃ t, exec i s = .next t ∧ OnlyFaults (.illegalCommand (encode i)) s t :=
  ⟨_, exec_of_not_wellFormed hi s, takeFault_onlyFaults s _⟩

/-- A step takes the word of an ill-formed command as its meaning takes the command (R66, R101, log entry 9). -/
theorem step_of_not_wellFormed {i : Instr} (hi : ¬ i.WellFormed) {s : State} {rest : List Command} (hf : s.faultRec = none)
    (hp : s.pending = encode i :: rest) : step s = exec i (s.setPending rest) := by
  rw [step_of_illegal hf hp (decode_encode_of_not_wellFormed hi), exec_of_not_wellFormed hi]

/-- Settles O56: the commands named are the ill-formed ones, and their words are refused. -/
theorem laneCommandsOfSpAndPcTakeTheFault : Obligations.LaneCommandsOfSpAndPcTakeTheFault := by
  refine ⟨fun p s hp => ?_, fun i s rest hi hf hp => ⟨fun cmd hd => hi (decode_wellFormed hd),
    ⟨_, decode_encode_of_not_wellFormed hi⟩, step_of_not_wellFormed hi hf hp⟩⟩
  have hpair : ¬ p.isPair = true := by simp [hp]
  exact ⟨exec_onlyFaults_of_not_wellFormed (i := .rdh p) hpair s, exec_onlyFaults_of_not_wellFormed (i := .rdl p) hpair s,
    fun d8 => ⟨exec_onlyFaults_of_not_wellFormed (i := .wrh p d8) hpair s,
      exec_onlyFaults_of_not_wellFormed (i := .wrl p d8) hpair s⟩⟩

end Sys2Proof.Machine
end

section
/-! The assembler (30_encoding.md R73): numerals are read in their base, and the twelve forms assemble to their commands. -/

namespace Sys2Proof.Machine

/-! ### Numerals -/

theorem digitsFrom_append (base acc : Nat) (cs ds : List Char) :
    digitsFrom base acc (cs ++ ds) = (digitsFrom base acc cs).bind (fun n => digitsFrom base n ds) := by
  induction cs generalizing acc with
  | nil => rfl
  | cons c cs ih =>
    simp only [List.cons_append, digitsFrom, ih]
    rw [Option.bind_assoc]

/-- The digits that `Nat.toDigits` writes are read as their values, up to base 16. -/
theorem digitValue_digitChar {base d : Nat} (hbase : base ≤ 16) (hd : d < base) :
    digitValue base (Nat.digitChar d) = some d := by
  have hd16 : d < 16 := Nat.lt_of_lt_of_le hd hbase
  interval_cases d <;> simp [digitValue, Nat.digitChar, hd]

theorem digitsFrom_toDigits {base : Nat} (hone : 1 < base) (hbase : base ≤ 16) (n : Nat) :
    digitsFrom base 0 (Nat.toDigits base n) = some n := by
  induction n using Nat.strong_induction_on with
  | _ n ih =>
    by_cases hn : n < base
    · rw [Nat.toDigits_of_lt_base hn]
      simp [digitsFrom, digitValue_digitChar hbase hn]
    · have hle : base ≤ n := Nat.not_lt.mp hn
      have hdiv : n / base < n := Nat.div_lt_self (by omega) hone
      have hmod : n % base < base := Nat.mod_lt n (by omega)
      rw [Nat.toDigits_of_base_le hone hle, digitsFrom_append, ih _ hdiv]
      simp [digitsFrom, digitValue_digitChar hbase hmod, Nat.div_add_mod']

theorem digits_toDigits {base : Nat} (hone : 1 < base) (hbase : base ≤ 16) (n : Nat) :
    digits base (Nat.toDigits base n) = some n := by
  rw [digits, if_neg Nat.toDigits_ne_nil, digitsFrom_toDigits hone hbase]

/-- A string of decimal digits begins with neither `0x` nor `0b`. -/
theorem parseNumber_of_decimal {cs : List Char} {n : Nat} (h : digits 10 cs = some n) : parseNumber cs = some n := by
  unfold parseNumber
  split
  · have hx : digitValue 10 'x' = none := by decide
    simp [digits, digitsFrom, hx] at h
  · have hb : digitValue 10 'b' = none := by decide
    simp [digits, digitsFrom, hb] at h
  · exact h

/-- Settles O57: by induction on the digits; in base 2 there is no underscore to drop. -/
theorem numeralsAreReadInTheirBase : Obligations.NumeralsAreReadInTheirBase := by
  intro n
  refine ⟨parseNumber_of_decimal (digits_toDigits (by decide) (by decide) n),
    digits_toDigits (by decide) (by decide) n, ?_⟩
  have hfilter : (Nat.toDigits 2 n).filter (· ≠ '_') = Nat.toDigits 2 n := by
    refine List.filter_eq_self.mpr (fun c hc => ?_)
    have hdigit : c.isDigit = true := Nat.isDigit_of_mem_toDigits (by decide) (by decide) hc
    have hne : c ≠ '_' := by
      rintro rfl
      exact absurd hdigit (by decide)
    simpa using hne
  rw [parseNumber, hfilter, digits_toDigits (by decide) (by decide)]

/-! ### Operands -/

/-- R73: the operand a number gives has that number as its value. -/
theorem immediate_eq_some_iff (w : Nat) (cs : List Char) (v : BitVec w) :
    immediate w cs = some v ↔ parseNumber cs = some v.toNat := by
  constructor
  · intro h
    obtain ⟨n, hn, hv⟩ := Option.bind_eq_some_iff.mp h
    split at hv
    next hlt =>
      cases hv
      rw [hn, BitVec.toNat_ofNat, Nat.mod_eq_of_lt hlt]
    next => cases hv
  · intro h
    rw [immediate_of_number w _ cs h, if_pos v.isLt, BitVec.ofNat_toNat, BitVec.setWidth_eq]

@[simp] theorem regName_name (p : Reg) : regName p.name.toList = some p := by cases p <;> decide

@[simp] theorem pairName_name (p : Reg) : pairName p.name.toList = if p.isPair then some p else none := by
  cases p <;> decide

@[simp] theorem flagName_name (f : Flag) : flagName f.name.toList = some f := by cases f <;> decide

theorem isWord_regName (p : Reg) : IsWord p.name.toList := by cases p <;> simp [IsWord, Reg.name]

theorem isWord_flagName (f : Flag) : IsWord f.name.toList := by cases f <;> simp [IsWord, Flag.name]

/-! ### What the assembler accepts is a command -/

theorem pairName_isPair {cs : List Char} {p : Reg} (h : pairName cs = some p) : p.isPair = true :=
  (Option.filter_eq_some_iff.mp h).2

theorem oneOperand_eq_some {α : Type} {read : List Char → Option α} {make : α → Instr} {words : List (List Char)}
    {i : Instr} (h : oneOperand read make words = some i) : ∃ x a, read x = some a ∧ i = make a := by
  unfold oneOperand at h
  split at h
  next x =>
    obtain ⟨a, ha, rfl⟩ := Option.map_eq_some_iff.mp h
    exact ⟨x, a, ha, rfl⟩
  next => cases h

theorem twoOperands_eq_some {α β : Type} {readA : List Char → Option α} {readB : List Char → Option β}
    {make : α → β → Instr} {words : List (List Char)} {i : Instr} (h : twoOperands readA readB make words = some i) :
    ∃ x a b, readA x = some a ∧ i = make a b := by
  unfold twoOperands at h
  split at h
  next x y =>
    obtain ⟨a, ha, hb⟩ := Option.bind_eq_some_iff.mp h
    obtain ⟨b, -, rfl⟩ := Option.map_eq_some_iff.mp hb
    exact ⟨x, a, b, ha, rfl⟩
  next => cases h

theorem noOperand_eq_some {i j : Instr} {words : List (List Char)} (h : noOperand i words = some j) : j = i := by
  unfold noOperand at h
  split at h
  next => exact (Option.some.inj h).symm
  next => cases h

/-- A lane form reads the name of a pair (R73). -/
theorem parseOperands_wellFormed {op : Op} {words : List (List Char)} {i : Instr} (h : parseOperands op words = some i) :
    i.WellFormed := by
  cases op with
  | rd16 | getf | mrd | cwr =>
    obtain ⟨-, a, -, rfl⟩ := oneOperand_eq_some h
    rfl
  | wr16 | setf | mwr =>
    obtain ⟨-, a, b, -, rfl⟩ := twoOperands_eq_some h
    rfl
  | rdh | rdl =>
    obtain ⟨x, p, hp, rfl⟩ := oneOperand_eq_some h
    exact pairName_isPair hp
  | wrh | wrl =>
    obtain ⟨x, p, d, hp, rfl⟩ := twoOperands_eq_some h
    exact pairName_isPair hp
  | crd =>
    cases noOperand_eq_some h
    rfl

theorem assemble_eq_some {line : String} {cmd : Command} (h : assemble line = some cmd) :
    ∃ i, decode cmd = .ok i ∧ encode i = cmd := by
  obtain ⟨i, hi, rfl⟩ := Option.map_eq_some_iff.mp h
  obtain ⟨op, -, hop⟩ := Option.bind_eq_some_iff.mp hi
  exact ⟨i, decode_encode (parseOperands_wellFormed hop), rfl⟩

/-! ### The lines of the twelve forms -/

/-- The mnemonic of an operation (R63). -/
def mnemonic : Op → List Char
  | .rd16 => ['R', 'D', '1', '6']
  | .wr16 => ['W', 'R', '1', '6']
  | .rdh => ['R', 'D', 'H']
  | .wrh => ['W', 'R', 'H']
  | .rdl => ['R', 'D', 'L']
  | .wrl => ['W', 'R', 'L']
  | .getf => ['G', 'E', 'T', 'F']
  | .setf => ['S', 'E', 'T', 'F']
  | .mrd => ['M', 'R', 'D']
  | .mwr => ['M', 'W', 'R']
  | .crd => ['C', 'R', 'D']
  | .cwr => ['C', 'W', 'R']

@[simp] theorem mnemonicName_mnemonic (op : Op) : mnemonicName (mnemonic op) = some op := by cases op <;> decide

theorem isWord_mnemonic (op : Op) : IsWord (mnemonic op) := by cases op <;> simp [IsWord, mnemonic]

section
variable {head x y : String}

/-- A form with one operand assembles to the command of what the operand is read as. -/
theorem assemble_oneOperand {α : Type} {op : Op} (hhead : head.toList = mnemonic op ++ [' ']) (hx : IsWord x.toList)
    {read : List Char → Option α} {make : α → Instr} (hform : parseOperands op = oneOperand read make) :
    assemble (head ++ x) = (read x.toList).map (fun a => encode (make a)) := by
  have hline : (head ++ x).toList = mnemonic op ++ ' ' :: x.toList := by simp [String.toList_append, hhead]
  rw [assemble, hline, parseChars_one _ _ (isWord_mnemonic op) hx, mnemonicName_mnemonic, Option.bind_some, hform]
  exact Option.map_map ..

/-- A form with two operands assembles to the command of what these are read as. -/
theorem assemble_twoOperands {α β : Type} {op : Op} (hhead : head.toList = mnemonic op ++ [' ']) (hx : IsWord x.toList)
    (hy : IsWord y.toList) {readA : List Char → Option α} {readB : List Char → Option β} {make : α → β → Instr}
    (hform : parseOperands op = twoOperands readA readB make) :
    assemble (head ++ x ++ ", " ++ y) =
      (readA x.toList).bind (fun a => (readB y.toList).map (fun b => encode (make a b))) := by
  have hline : (head ++ x ++ ", " ++ y).toList = mnemonic op ++ ' ' :: (x.toList ++ ',' :: ' ' :: y.toList) := by
    simp [String.toList_append, hhead]
  rw [assemble, hline, parseChars_two _ _ _ (isWord_mnemonic op) hx hy, mnemonicName_mnemonic, Option.bind_some, hform]
  simp [twoOperands, Option.map_bind, Function.comp_def]

end

theorem assemble_register_forms (p : Reg) : assemble ("RD16 " ++ p.name) = some (encode (.rd16 p)) ∧
    assemble ("RDH " ++ p.name) = (if p.isPair then some (encode (.rdh p)) else none) ∧
    assemble ("RDL " ++ p.name) = (if p.isPair then some (encode (.rdl p)) else none) := by
  have hp := isWord_regName p
  refine ⟨?_, ?_, ?_⟩
  · rw [assemble_oneOperand (op := .rd16) (by decide) hp rfl, regName_name, Option.map_some]
  · rw [assemble_oneOperand (op := .rdh) (by decide) hp rfl, pairName_name]
    cases p.isPair <;> rfl
  · rw [assemble_oneOperand (op := .rdl) (by decide) hp rfl, pairName_name]
    cases p.isPair <;> rfl

theorem assemble_getf (f : Flag) : assemble ("GETF " ++ f.name) = some (encode (.getf f)) := by
  rw [assemble_oneOperand (op := .getf) (by decide) (isWord_flagName f) rfl, flagName_name, Option.map_some]

/-- The operand of SETF is one bit. -/
theorem ofNat_one_beq {n : Nat} (h : n < 2) : (BitVec.ofNat 1 n == 1) = (n == 1) := by
  interval_cases n <;> rfl

section
variable {x : String} {n : Nat} (hx : parseNumber x.toList = some n)
include hx

theorem assemble_register_number_forms (p : Reg) :
    assemble ("WR16 " ++ p.name ++ ", " ++ x) =
      (if n < 0x10000 then some (encode (.wr16 p (BitVec.ofNat 16 n))) else none) ∧
    assemble ("WRH " ++ p.name ++ ", " ++ x) =
      (if p.isPair ∧ n < 0x100 then some (encode (.wrh p (BitVec.ofNat 8 n))) else none) ∧
    assemble ("WRL " ++ p.name ++ ", " ++ x) =
      (if p.isPair ∧ n < 0x100 then some (encode (.wrl p (BitVec.ofNat 8 n))) else none) := by
  have hp := isWord_regName p
  have hw := parseNumber_isWord _ n hx
  refine ⟨?_, ?_, ?_⟩
  · rw [assemble_twoOperands (op := .wr16) (by decide) hp hw rfl, regName_name, immediate_of_number 16 n _ hx]
    by_cases hn : n < 0x10000 <;> simp [hn]
  · rw [assemble_twoOperands (op := .wrh) (by decide) hp hw rfl, pairName_name, immediate_of_number 8 n _ hx]
    by_cases hn : n < 0x100 <;> cases p.isPair <;> simp [hn]
  · rw [assemble_twoOperands (op := .wrl) (by decide) hp hw rfl, pairName_name, immediate_of_number 8 n _ hx]
    by_cases hn : n < 0x100 <;> cases p.isPair <;> simp [hn]

theorem assemble_setf (f : Flag) :
    assemble ("SETF " ++ f.name ++ ", " ++ x) = (if n < 2 then some (encode (.setf f (n == 1))) else none) := by
  rw [assemble_twoOperands (op := .setf) (by decide) (isWord_flagName f) (parseNumber_isWord _ n hx) rfl,
    flagName_name, immediate_of_number 1 n _ hx]
  by_cases hn : n < 2
  · simp [hn, ← ofNat_one_beq hn]
  · simp [hn]

theorem assemble_mrd :
    assemble ("MRD " ++ x) = (if n < 0x10000 then some (encode (.mrd (BitVec.ofNat 16 n))) else none) := by
  rw [assemble_oneOperand (op := .mrd) (by decide) (parseNumber_isWord _ n hx) rfl, immediate_of_number 16 n _ hx]
  by_cases hn : n < 0x10000 <;> simp [hn]

theorem assemble_cwr :
    assemble ("CWR " ++ x) = (if n < 0x100 then some (encode (.cwr (BitVec.ofNat 8 n))) else none) := by
  rw [assemble_oneOperand (op := .cwr) (by decide) (parseNumber_isWord _ n hx) rfl, immediate_of_number 8 n _ hx]
  by_cases hn : n < 0x100 <;> simp [hn]

theorem assemble_mwr {y : String} {m : Nat} (hy : parseNumber y.toList = some m) :
    assemble ("MWR " ++ x ++ ", " ++ y) =
      (if n < 0x10000 ∧ m < 0x100 then some (encode (.mwr (BitVec.ofNat 16 n) (BitVec.ofNat 8 m))) else none) := by
  rw [assemble_twoOperands (op := .mwr) (by decide) (parseNumber_isWord _ n hx) (parseNumber_isWord _ m hy) rfl,
    immediate_of_number 16 n _ hx, immediate_of_number 8 m _ hy]
  by_cases hn : n < 0x10000 <;> by_cases hm : m < 0x100 <;> simp [hn, hm]

end

/-- Settles O36: a line is its mnemonic and its operands, each a word, and what they are read as is well-formed. -/
theorem assembledLinesAreCommands : Obligations.AssembledLinesAreCommands :=
  ⟨fun _ _ h => assemble_eq_some h, immediate_eq_some_iff, assemble_register_forms, assemble_getf, by decide,
    fun x n hx => ⟨assemble_register_number_forms hx, assemble_setf hx, assemble_mrd hx, assemble_cwr hx⟩,
    fun x y n m hx hy => assemble_mwr hx hy⟩

end Sys2Proof.Machine
end

section
/-! Register commands (40_register_ops.md): each of the six reads or writes one view of one register and changes nothing else
(R79 to R84), the views of a pair are one cell (R85), and a register or flag command fails only at decode (R86). -/

namespace Sys2Proof

/-! ### What `decode` answers on a word with op 0 to 7 -/

theorem opField_of_reservedOperation {cmd : Command} (h : decode cmd = .error .reservedOperation) :
    0xC#4 ≤ opField cmd := by
  cases hrow : rowOf cmd with
  | none =>
    by_contra hlt
    rw [decode_of_rowOf_none hrow, if_neg hlt] at h
    cases h
  | some op => cases hops : operands op cmd <;> simp [decode, hrow, hops] at h

/-- R63: the commands of the register file are those with op 0 to 7. -/
theorem ofRegisterFile_iff_opField (i : Instr) : i.ofRegisterFile = true ↔ (opField (encode i)).toNat ≤ 7 := by
  cases i <;> simp [Instr.ofRegisterFile, encode]

end Sys2Proof

namespace Sys2Proof.Machine

/-! ### Lanes of a register -/

section
variable (s : State) (p : Reg) (v : Word) (d : Byte)

@[simp] theorem respond_readHi : (s.respond v).readHi p = s.readHi p := by simp [State.readHi]
@[simp] theorem respond_readLo : (s.respond v).readLo p = s.readLo p := by simp [State.readLo]

@[simp] theorem writeHi_readHi : (s.writeHi p d).readHi p = d := by simp [State.writeHi, State.readHi]
@[simp] theorem writeHi_readLo : (s.writeHi p d).readLo p = s.readLo p := by simp [State.writeHi, State.readLo]
@[simp] theorem writeLo_readHi : (s.writeLo p d).readHi p = s.readHi p := by simp [State.writeLo, State.readHi]
@[simp] theorem writeLo_readLo : (s.writeLo p d).readLo p = d := by simp [State.writeLo, State.readLo]

/-- R22: the register is its two lanes. -/
theorem readReg_eq_joinLanes : s.readReg p = joinLanes (s.readHi p) (s.readLo p) := (joinLanes_lanes (s.readReg p)).symm

theorem writeHi_onlyWritesReg : OnlyWritesReg p ((d.setWidth 16 <<< 8) ||| (s.readReg p &&& 0x00FF#16)) s
    ((s.writeHi p d).respond 0x0000) := by
  rw [← joinLanes_high]
  exact writeReg_onlyWritesReg s p _

theorem writeLo_onlyWritesReg : OnlyWritesReg p ((s.readReg p &&& 0xFF00#16) ||| d.setWidth 16) s
    ((s.writeLo p d).respond 0x0000) := by
  rw [← joinLanes_low]
  exact writeReg_onlyWritesReg s p _

end

/-! ### The flags are bits of the low lane of AF (R26) -/

section
variable {s t : State} {p : Reg}

theorem getFlag_eq_readLo (s : State) (f : Flag) : s.getFlag f = (s.readLo .af).getLsbD f.bit := by
  simp [State.getFlag, State.readLo, loLane, flagBit_lt f]

theorem reservedNibble_eq_readLo (s : State) : s.reservedNibble = (s.readLo .af).extractLsb' 0 4 :=
  (lowNibble_loLane (s.readReg .af)).symm

/-- A command that writes another register than AF keeps every flag. -/
theorem SameRegsBut.getFlag (h : SameRegsBut p s t) (hp : p ≠ .af) (f : Flag) : t.getFlag f = s.getFlag f :=
  congrArg (·.getLsbD f.bit) (h .af hp.symm)

/-- A command that writes one register and keeps its low lane keeps every flag. -/
theorem SameRegsBut.getFlag_of_readLo (h : SameRegsBut p s t) (hlo : t.readLo p = s.readLo p) (f : Flag) :
    t.getFlag f = s.getFlag f := by
  by_cases hp : p = .af
  · subst hp
    rw [getFlag_eq_readLo, hlo, ← getFlag_eq_readLo]
  · exact SameRegsBut.getFlag h hp f

end

/-! ### The six register commands -/

/-- Settles O1: the word is the encoding, and the meaning is a response. -/
theorem rd16AnswersTheWholeRegister : Obligations.Rd16AnswersTheWholeRegister :=
  ⟨fun p => decode_encode (i := .rd16 p) rfl, fun _ h => decode_rd16_selector h,
    fun p s => ⟨_, rfl, respond_onlyAnswers s (s.readReg p)⟩⟩

/-- Settles O2: lanes, flags and reserved nibble are parts of the word that is written. -/
theorem wr16WritesTheWholeRegister : Obligations.Wr16WritesTheWholeRegister := by
  refine ⟨fun p d16 => decode_encode (i := .wr16 p d16) rfl, fun _ d16 h => decode_wr16_selector h d16,
    fun p d16 s => ?_⟩
  have hw := writeReg_onlyWritesReg s p d16
  refine ⟨_, rfl, hw, congrArg hiLane hw.written, congrArg loLane hw.written, ?_, SameRegsBut.getFlag hw.regs⟩
  rintro rfl
  have hbit (k : Nat) := congrArg (·.getLsbD k) hw.written
  exact ⟨hbit 7, hbit 6, hbit 5, hbit 4, congrArg (·.extractLsb' 0 4) hw.written⟩

/-- Settles O3: the response is the high lane, which is the register shifted. -/
theorem rdhAnswersTheHighLane : Obligations.RdhAnswersTheHighLane := by
  refine ⟨fun p hp => decode_encode (i := .rdh p) hp, fun _ h => decode_rdh_selector h,
    fun p s hp => ⟨_, execRdh_pair s p hp, ?_⟩⟩
  rw [State.readHi, zext16_hiLane]
  exact respond_onlyAnswers s _

/-- Settles O4: the low lane is written with what it held, and with it the flags. -/
theorem wrhWritesTheHighLane : Obligations.WrhWritesTheHighLane := by
  refine ⟨fun p d8 hp => decode_encode (i := .wrh p d8) hp, fun _ d8 h => decode_wrh_selector h d8,
    fun p d8 s hp => ?_⟩
  have hw := writeHi_onlyWritesReg s p d8
  have hlo : ((s.writeHi p d8).respond 0x0000).readLo p = s.readLo p := by simp
  exact ⟨_, execWrh_pair s p d8 hp, hw, hlo, by simp, SameRegsBut.getFlag_of_readLo hw.regs hlo⟩

/-- Settles O5: the response is the low lane, which is the register masked. -/
theorem rdlAnswersTheLowLane : Obligations.RdlAnswersTheLowLane := by
  refine ⟨fun p hp => decode_encode (i := .rdl p) hp, fun _ h => decode_rdl_selector h,
    fun p s hp => ⟨_, execRdl_pair s p hp, ?_⟩⟩
  rw [State.readLo, zext16_loLane]
  exact respond_onlyAnswers s _

/-- Settles O6: flags and reserved nibble are the bits of the low lane of AF. -/
theorem wrlWritesTheLowLane : Obligations.WrlWritesTheLowLane := by
  refine ⟨fun p d8 hp => decode_encode (i := .wrl p d8) hp, fun _ d8 h => decode_wrl_selector h d8,
    fun p d8 s hp => ?_⟩
  have hw := writeLo_onlyWritesReg s p d8
  have hlo : ((s.writeLo p d8).respond 0x0000).readLo p = d8 := by simp
  refine ⟨_, execWrl_pair s p d8 hp, hw, by simp, hlo, ?_, SameRegsBut.getFlag hw.regs⟩
  rintro rfl
  simp only [getFlag_eq_readLo, reservedNibble_eq_readLo, hlo, Flag.bit, and_self]

/-! ### The lanes and the word of a pair are one cell (R85) -/

/-- Settles O7: each lane write leaves the other lane, so after both, in either order, the register is the two lanes. -/
theorem lanesAndWordAreOneCell : Obligations.LanesAndWordAreOneCell := by
  intro p s hp
  refine ⟨fun v => ⟨_, _, _, rfl, execRdh_pair _ p hp, execRdl_pair _ p hp, ?_, ?_⟩, fun h l => ?_, fun h l => ?_⟩
  · simp [State.readHi, zext16_hiLane]
  · simp [State.readLo, zext16_loLane]
  · refine ⟨_, _, _, execWrh_pair s p h hp, execWrl_pair _ p l hp, rfl, ?_⟩
    rw [respond_resp, readReg_eq_joinLanes, joinLanes_eq_shift_or]
    simp
  · refine ⟨_, _, _, execWrl_pair s p l hp, execWrh_pair _ p h hp, rfl, ?_⟩
    rw [respond_resp, readReg_eq_joinLanes, joinLanes_eq_shift_or]
    simp

/-! ### Register and flag commands fail only at decode (R86) -/

/-- A well-formed command of the register file answers OK: only memory and ill-formed commands fault. -/
theorem exec_registerFile_ok {i : Instr} (s : State) (hfile : i.ofRegisterFile = true) (hi : i.WellFormed) :
    ∃ t v, exec i s = .next t ∧ t.resp = some ⟨.ok, v⟩ ∧ t.faultRec = s.faultRec := by
  rcases exec_cases i s with ⟨v, he⟩ | ⟨p, v, he⟩ | ⟨a, d, p, rfl, -, -⟩ | ⟨d8, rfl, -⟩ |
    ⟨r, -, ⟨a, -, rfl | ⟨d, rfl⟩, -⟩ | ⟨hill, -⟩⟩
  · exact ⟨_, v, he, rfl, rfl⟩
  · exact ⟨_, _, he, rfl, by simp⟩
  · cases hfile
  · cases hfile
  · cases hfile
  · cases hfile
  · exact absurd hi hill

/-- Settles O8: a word with op 0 to 7 is of the register file if it decodes, and of no reserved operation if it does not. -/
theorem registerCommandsFailOnlyAtDecode : Obligations.RegisterCommandsFailOnlyAtDecode := by
  refine ⟨fun i s hfile hi => exec_registerFile_ok s hfile hi, fun s cmd rest hf hp hop => ?_⟩
  have hop' : (opField cmd).toNat ≤ 7 := hop
  cases hd : decode cmd with
  | ok i =>
    have hfile : i.ofRegisterFile = true := by rwa [ofRegisterFile_iff_opField, encode_of_decode hd]
    obtain ⟨t, v, ht, hresp, hrec⟩ := exec_registerFile_ok (s.setPending rest) hfile (decode_wellFormed hd)
    exact ⟨t, (step_of_decode hf hp hd).trans ht, .inl ⟨i, v, rfl, hfile, hresp, hrec.trans hf⟩⟩
  | error e =>
    refine ⟨_, step_of_illegal hf hp hd, .inr ⟨?_, rfl⟩⟩
    cases e with
    | selector => exact .inl rfl
    | mustBeZero => exact .inr rfl
    | reservedOperation =>
      have hres : 12 ≤ (opField cmd).toNat := opField_of_reservedOperation hd
      omega

end Sys2Proof.Machine
end

section
/-! Flag commands (41_flag_ops.md): GETF answers one bit of AF (R87), SETF writes one bit and keeps the rest of AF (R88), so the
flags are independent of each other (R89). -/

namespace Sys2Proof

/-! ### The must-be-zero bits of format FS (R62, R67) -/

theorem opField_append (op : BitVec 4) (s : Selector) (x : BitVec 24) : opField (op ++ s ++ x) = op := by
  rw [opField, BitVec.extractLsb'_append_eq_of_le (by decide), BitVec.extractLsb'_append_eq_left]

theorem decode_setf_mustBeZero (s : Selector) {x : BitVec 24} (h : x.extractLsb' 1 23 ≠ 0) :
    decode (0x7#4 ++ s ++ x) = .error .mustBeZero := by
  have hfield : (0x7#4 ++ s ++ x).extractLsb' 1 23 = x.extractLsb' 1 23 :=
    BitVec.extractLsb'_append_eq_of_add_le (by decide)
  exact decode_mustBeZero .setf (opField_append 0x7 s x) (hfield ▸ h) (by decide) (by decide)

end Sys2Proof

namespace Sys2Proof.Machine

/-! ### What SETF writes (R88) -/

section
variable (s : State) (f : Flag) (v : Bool)

@[simp] theorem respond_getFlag (rdata : Word) : (s.respond rdata).getFlag f = s.getFlag f := by simp [State.getFlag]

@[simp] theorem respond_reservedNibble (rdata : Word) : (s.respond rdata).reservedNibble = s.reservedNibble := by
  simp [State.reservedNibble]

@[simp] theorem setFlag_readReg_af : (s.setFlag f v).readReg .af = flagWord (s.readReg .af) f v := by
  simp [State.setFlag]

@[simp] theorem setFlag_getFlag_self : (s.setFlag f v).getFlag f = v := by simp [State.getFlag]

theorem setFlag_getFlag_of_ne {g : Flag} (h : g ≠ f) : (s.setFlag f v).getFlag g = s.getFlag g := by
  have hbit : g.bit ≠ f.bit := fun he => h (flagBit_inj he)
  simp [State.getFlag, hbit]

/-- A flag is no bit of the high lane. -/
@[simp] theorem setFlag_readHi : (s.setFlag f v).readHi .af = s.readHi .af := by
  ext i hi
  have hbit : 8 + i ≠ f.bit := by have := flagBit_lt f; omega
  simp [State.readHi, hiLane, hbit]

/-- A flag is no bit of the reserved nibble. -/
@[simp] theorem setFlag_reservedNibble : (s.setFlag f v).reservedNibble = s.reservedNibble := by
  ext i hi
  have hbit : i ≠ f.bit := by have := four_le_flagBit f; omega
  simp [State.reservedNibble, hbit]

end

/-! ### The two flag commands -/

/-- Settles O11: the response is the flag's bit, and nothing else is written. -/
theorem getfAnswersOneFlag : Obligations.GetfAnswersOneFlag := by
  refine ⟨fun f => decode_encode (i := .getf f) rfl, fun _ h => decode_getf_selector h, fun f s => ⟨_, rfl, ?_⟩⟩
  rw [← State.getFlag, ← bitWord_eq]
  exact respond_onlyAnswers s _

/-- Settles O12: AF is written with the rule's own formula, in which one bit differs. -/
theorem setfWritesOneFlag : Obligations.SetfWritesOneFlag := by
  refine ⟨fun f v => decode_encode (i := .setf f v) rfl, fun _ v h => decode_setf_selector h v,
    fun f _ h => decode_setf_mustBeZero f.selector h, fun f v s => ?_⟩
  refine ⟨_, rfl, writeReg_onlyWritesReg s .af (flagWord (s.readReg .af) f v), by simp, fun g hg => ?_, by simp⟩
  rw [respond_getFlag, setFlag_getFlag_of_ne s f v hg]

/-- Settles O13: GETF answers from a flag's bit, and SETF keeps every bit but one. -/
theorem flagsAreIndependent : Obligations.FlagsAreIndependent := by
  refine fun f v s => ⟨_, _, rfl, rfl, ?_, by simp, fun g hg => ⟨_, _, rfl, rfl, ?_⟩⟩
  · rw [respond_resp, respond_getFlag, setFlag_getFlag_self, bitWord_eq]
  · rw [respond_resp, respond_resp, respond_getFlag, setFlag_getFlag_of_ne s f v hg]

end Sys2Proof.Machine
end

section
/-! Memory commands (42_memory_ops.md): MRD and MWR act on the place their address resolves to and fault outside the window (R91,
R92), and an issuer whose words are all commands and whose addresses are in the window runs to its end without a fault (R94,
R122). -/

namespace Sys2Proof.Machine

/-! ### A correct issuer runs to the end (R94, R122, R126) -/

/-- The response port shows that the last command completed. -/
def AnsweredOk (s : State) : Prop := ∃ v, s.resp = some ⟨.ok, v⟩

/-- The next word, if correct, is accepted without a fault and answered OK. -/
theorem step_of_correct_word {s : State} {cmd : Command} {rest : List Command} (hf : s.faultRec = none)
    (hp : s.pending = cmd :: rest) (hc : Correct cmd) :
    ∃ t, step s = .next t ∧ t.faultRec = none ∧ t.pending = rest ∧ AnsweredOk t := by
  obtain ⟨i, hd, hin⟩ := hc
  obtain ⟨t, ht, htp⟩ := exec_next i (s.setPending rest)
  have htf : t.faultRec = none := (exec_keeps_faultRec (decode_wellFormed hd) hin ht).trans hf
  obtain ⟨⟨st, v⟩, hresp, hok, -⟩ := exec_answer (s := s.setPending rest) hf ht
  obtain rfl : st = .ok := hok.mpr htf
  exact ⟨t, (step_of_decode hf hp hd).trans ht, htf, htp, v, hresp⟩

/-- Correct words are accepted one a step, whatever words wait behind them; after each of them the port shows OK. -/
theorem run_of_correct_words {cmds later : List Command} {s : State} (hf : s.faultRec = none)
    (hp : s.pending = cmds ++ later) (hc : ∀ cmd ∈ cmds, Correct cmd) :
    ∃ t, RunsSafely cmds.length s t ∧ t.pending = later ∧ (AnsweredOk s ∨ cmds ≠ [] → AnsweredOk t) := by
  induction cmds generalizing s with
  | nil => exact ⟨s, ⟨run_zero s, hf⟩, hp, fun h => h.resolve_right (fun hne => hne rfl)⟩
  | cons cmd cmds ih =>
    obtain ⟨hcmd, hcmds⟩ := List.forall_mem_cons.mp hc
    obtain ⟨u, hstep, huf, hup, hu⟩ := step_of_correct_word hf hp hcmd
    obtain ⟨t, ⟨hrun, htf⟩, htp, ht⟩ := ih huf hup hcmds
    exact ⟨t, ⟨(run_of_step_next _ s u hstep).trans hrun, htf⟩, htp, fun _ => ht (.inl hu)⟩

/-- Settles O52: by induction on the words, each is accepted without a fault and answered OK. -/
theorem correctIssuerRunsToTheEnd : Obligations.CorrectIssuerRunsToTheEnd := by
  intro cmds s hf hp hc
  obtain ⟨t, hrun, htp, ht⟩ := run_of_correct_words (later := []) hf (by simpa using hp) hc
  exact ⟨t, hrun, htp, fun hne => ht (.inr hne)⟩

/-! ### Resolution on this hardware (R11, R40) -/

section
variable {s t : State} {a : Addr} {p : Place}

theorem resolve_fixed (s : State) (hlo : 0xC000 ≤ a.toNat) (hhi : a.toNat < 0xD000) :
    s.resolve a = some ⟨0, BitVec.ofNat 12 (a.toNat - 0xC000)⟩ :=
  resolveAt_fixed 0xC000 s.sel a hlo hhi

theorem resolve_switchable (s : State) (hlo : 0xD000 ≤ a.toNat) (hhi : a.toNat < 0xE000) :
    s.resolve a = some ⟨s.sel, BitVec.ofNat 12 (a.toNat - 0xD000)⟩ :=
  resolveAt_switchable 0xC000 s.sel a hlo hhi

theorem resolve_outside (s : State) (h : a.toNat < 0xC000 ∨ 0xE000 ≤ a.toNat) : s.resolve a = none := by
  refine (resolveAt_eq_none_iff _ _ a).mpr (Bool.eq_false_iff.mpr fun hw => ?_)
  obtain ⟨hlo, hhi⟩ := (inWindow_iff a).mp hw
  omega

/-- An address reads alike in two states with one bank selected, if the byte it resolves to does. -/
theorem memRead_congr (hsel : t.sel = s.sel) (h : ∀ p, s.resolve a = some p → t.readByte p = s.readByte p) :
    t.memRead a = s.memRead a := by
  rw [State.memRead, resolve_eq_of_sel_eq s t a hsel, State.memRead]
  exact Option.map_congr h

/-! ### What MRD and MWR do in the window and outside it (R91, R92, R100) -/

theorem exec_mrd_onlyAnswers (hr : s.resolve a = some p) :
    ∃ t, exec (.mrd a) s = .next t ∧ OnlyAnswers ((s.readByte p).setWidth 16) s t :=
  ⟨_, execMrd_of_resolve s a p hr, respond_onlyAnswers s _⟩

theorem exec_mrd_onlyFaults (hr : s.resolve a = none) :
    ∃ t, exec (.mrd a) s = .next t ∧ OnlyFaults (.outOfRange (encode (.mrd a)) a) s t :=
  ⟨_, execMrd_outside s a hr, takeFault_onlyFaults s _⟩

theorem exec_mwr_onlyStoresAt (d : Byte) (hr : s.resolve a = some p) :
    ∃ t, exec (.mwr a d) s = .next t ∧ OnlyStoresAt p s t ∧ (Memory.wf s.mem → t.readByte p = d) :=
  ⟨_, execMwr_of_resolve s a d p hr, writeByte_onlyStoresAt s p d, writeByte_readByte_self s p d⟩

theorem exec_mwr_onlyFaults (d : Byte) (hr : s.resolve a = none) :
    ∃ t, exec (.mwr a d) s = .next t ∧ OnlyFaults (.outOfRange (encode (.mwr a d)) a) s t :=
  ⟨_, execMwr_outside s a d hr, takeFault_onlyFaults s _⟩

end

/-! ### The two memory commands -/

/-- Settles O15: the response is the byte resolved to, and where nothing is resolved the fault is taken. -/
theorem mrdAnswersTheResolvedByte : Obligations.MrdAnswersTheResolvedByte := by
  refine ⟨fun a => decode_encode (i := .mrd a) rfl, fun a s => ⟨fun hlo hhi => ?_, fun hlo hhi => ?_, fun h => ?_⟩⟩
  · exact exec_mrd_onlyAnswers (resolve_fixed s hlo hhi)
  · exact exec_mrd_onlyAnswers (resolve_switchable s hlo hhi)
  · exact exec_mrd_onlyFaults (resolve_outside s h)

/-- Settles O16: the byte resolved to is written, and where nothing is resolved the fault is taken. -/
theorem mwrStoresTheResolvedByte : Obligations.MwrStoresTheResolvedByte := by
  refine ⟨fun a d => decode_encode (i := .mwr a d) rfl,
    fun a d s => ⟨fun hlo hhi => ?_, fun hlo hhi => ?_, fun h => ?_⟩⟩
  · exact exec_mwr_onlyStoresAt d (resolve_fixed s hlo hhi)
  · exact exec_mwr_onlyStoresAt d (resolve_switchable s hlo hhi)
  · exact exec_mwr_onlyFaults d (resolve_outside s h)

/-- Settles O17: MWR keeps `sel`, so an address resolves after it as before, and to another byte than the one written. -/
theorem mwrFrameThroughResolution : Obligations.MwrFrameThroughResolution := by
  refine fun a d s => ⟨fun p hr => ?_, fun hr => ?_⟩
  · obtain ⟨t, ht, hstore, -⟩ := exec_mwr_onlyStoresAt d hr
    refine ⟨t, ht, hstore.bytes, fun b hb => memRead_congr hstore.sel fun q hq => hstore.bytes q ?_⟩
    rintro rfl
    exact hb hq
  · obtain ⟨t, ht, hfault⟩ := exec_mwr_onlyFaults d hr
    exact ⟨t, ht, hfault.bytes, fun b => memRead_congr hfault.sel fun q _ => hfault.bytes q⟩

/-- Settles O18: the read resolves to the place that was written. -/
theorem bankWriteThenReadRoundTrips : Obligations.BankWriteThenReadRoundTrips := by
  intro a x s hm hw
  rcases access_cases s a with ⟨hout, -⟩ | ⟨-, p, hr, -⟩
  · exact absurd (hout.symm.trans hw) Bool.false_ne_true
  · obtain ⟨t, ht, hstore, hread⟩ := exec_mwr_onlyStoresAt x hr
    obtain ⟨u, hu, hans⟩ := exec_mrd_onlyAnswers ((resolve_eq_of_sel_eq s t a hstore.sel).trans hr)
    exact ⟨t, u, ht, hu, by rw [hans.resp, hread hm]⟩

end Sys2Proof.Machine
end

section
/-! Control commands (43_control_ops.md): CRD answers the control register (R95), CWR selects by the low three bits of its byte, 0
acting as 1 (R96, R97), and without CWR bank 1 stays in the switchable half (R98). -/

namespace Sys2Proof.Machine

/-! ### The control register and the bytes written to it (R31, R96) -/

/-- R95: five ones above an index that is not 0. -/
theorem controlWord_bounds {i : BankNo} (hi : i ≠ 0) :
    0xF9 ≤ (0x00F8#16 ||| i.setWidth 16).toNat ∧ (0x00F8#16 ||| i.setWidth 16).toNat ≤ 0xFF := by
  revert i
  decide

/-- R96: bits 7..3 of the byte are discarded. -/
theorem selOf_congr {d e : Byte} (h : d.toNat % 8 = e.toNat % 8) : selOf d = selOf e := by
  rw [selOf_eq_mod, selOf_eq_mod, h]

theorem selOf_eq_one {d : Byte} (h : d.toNat % 8 ≤ 1) : selOf d = 1 := by
  rcases Nat.le_one_iff_eq_zero_or_eq_one.mp h with h0 | h1
  · exact selOf_congr (e := 0) h0
  · exact selOf_congr (e := 1) h1

/-! ### What CRD and CWR do (R95, R96) -/

section
variable (s : State)

theorem exec_crd_onlyAnswers : ∃ t, exec .crd s = .next t ∧ OnlyAnswers (0x00F8#16 ||| s.sel.setWidth 16) s t := by
  rw [← zext16_controlValue]
  exact ⟨_, rfl, respond_onlyAnswers s _⟩

theorem exec_cwr_onlySelects (d : Byte) : ∃ t, exec (.cwr d) s = .next t ∧ OnlySelects (selOf d) s t :=
  ⟨_, rfl, setSel_onlySelects s _⟩

end

/-! ### Runs that present no CWR (R98) -/

/-- A step that changes the index ran the only command that does. -/
theorem step_cwr_of_sel_ne {s t : State} (ht : step s = .next t) (hne : t.sel ≠ s.sel) :
    ∃ cmd rest d, s.pending = cmd :: rest ∧ decode cmd = .ok (.cwr d) := by
  rcases step_eq_next_cases ht with rfl | ⟨cmd, rest, -, rfl⟩ | ⟨cmd, rest, i, -, hp, hd, -, he⟩
  · exact absurd rfl hne
  · exact absurd rfl hne
  · by_cases hi : ∃ d, i = .cwr d
    · obtain ⟨d, rfl⟩ := hi
      exact ⟨cmd, rest, d, hp, hd⟩
    · exact absurd (exec_keeps_sel (not_exists.mp hi) he) hne

/-- No waiting word is a CWR. -/
abbrev NoCwrWaiting (s : State) : Prop := AllWaiting (fun i => ∀ d, i ≠ .cwr d) s

theorem noCwrWaiting_iff (s : State) : NoCwrWaiting s ↔ ∀ cmd ∈ s.pending, ∀ d, decode cmd ≠ .ok (.cwr d) :=
  ⟨fun h cmd hcmd d hd => h cmd hcmd _ hd d rfl, fun h cmd hcmd _ hd d hi => h cmd hcmd d (hi ▸ hd)⟩

theorem step_keeps_sel {s t : State} (hw : NoCwrWaiting s) (ht : step s = .next t) : t.sel = s.sel := by
  by_contra hne
  obtain ⟨cmd, rest, d, hp, hd⟩ := step_cwr_of_sel_ne ht hne
  exact hw cmd (by simp [hp]) _ hd d rfl

theorem run_keeps_sel {n : Nat} {s t : State} (hw : NoCwrWaiting s) (h : Sys2Proof.core.run n s = .next t) :
    t.sel = s.sel := by
  induction n generalizing s with
  | zero =>
    cases h
    rfl
  | succ n ih =>
    cases hf : s.faultRec with
    | some r => cases (run_of_step_fault n s _ (step_of_faulted hf)).symm.trans h
    | none =>
      obtain ⟨u, hstep, hsub⟩ := step_next hf
      exact (ih (hw.of_subset hsub) ((run_of_step_next n s u hstep).symm.trans h)).trans (step_keeps_sel hw hstep)

theorem CorrectIn.correct {m : IssuerMode} {cmd : Command} (h : CorrectIn m cmd) : Correct cmd := by
  obtain ⟨i, hd, hc, -⟩ := h
  exact ⟨i, hd, hc⟩

/-- R122 (2): an issuer in legacy mode presents no CWR. -/
theorem noCwrWaiting_of_legacy {s : State} (h : ∀ cmd ∈ s.pending, CorrectIn .legacy cmd) : NoCwrWaiting s := by
  rintro cmd hcmd _ hd d rfl
  obtain ⟨i, hi, -, hcontrol⟩ := h cmd hcmd
  cases hi.symm.trans hd
  cases hcontrol rfl

/-! ### The two control commands -/

/-- Settles O23: the response is five ones above `sel`, and nothing else is written. -/
theorem crdAnswersTheControlRegister : Obligations.CrdAnswersTheControlRegister := by
  refine ⟨decode_encode (i := .crd) rfl, exec_crd_onlyAnswers, fun s hs => ?_⟩
  obtain ⟨t, ht, hans⟩ := exec_crd_onlyAnswers s
  exact ⟨t, _, ht, hans.resp, controlWord_bounds hs⟩

/-- Settles O24: CWR's only write is to `sel`, and no other command writes it. -/
theorem cwrSelectsTheMaskedBank : Obligations.CwrSelectsTheMaskedBank := by
  refine ⟨fun d => decode_encode (i := .cwr d) rfl, fun d s => ?_, fun s t ht hne => step_cwr_of_sel_ne ht hne⟩
  rw [← selOf_eq_mod]
  exact exec_cwr_onlySelects s d

/-- Settles O25: the byte is seen only through the index it selects, which is 1 for a byte that is 0 or 1 modulo 8. -/
theorem controlWriteIsMaskedAndCoerced : Obligations.ControlWriteIsMaskedAndCoerced := by
  refine ⟨fun d e s h => ?_, fun d s h => ?_⟩
  · rw [exec, exec, execCwr, execCwr, selOf_congr h]
  · obtain ⟨t, ht, hsel⟩ := exec_cwr_onlySelects s d
    obtain ⟨u, hu, hans⟩ := exec_crd_onlyAnswers t
    refine ⟨t, u, ht, hu, ?_⟩
    rw [hans.resp, hsel.selected, selOf_eq_one h]
    rfl

/-- Settles O27: by induction on the steps `sel` stays 1, and the legacy run is the run of an issuer without CWR. -/
theorem withoutCwrBankOneStaysMapped : Obligations.WithoutCwrBankOneStaysMapped := by
  refine ⟨fun n s t hs hw hrun => ?_, fun s hs hf hc => ?_⟩
  · have ht : t.sel = 1 := (run_keeps_sel ((noCwrWaiting_iff s).mpr hw) hrun).trans hs
    refine ⟨ht, fun a hlo hhi => ?_⟩
    rw [resolve_switchable t hlo hhi, ht]
  · obtain ⟨t, hrun, hp, -⟩ := run_of_correct_words (later := []) hf (by simp) fun cmd hcmd => (hc cmd hcmd).correct
    exact ⟨t, hrun, hp, (run_keeps_sel (noCwrWaiting_of_legacy hc) hrun.1).trans hs⟩

end Sys2Proof.Machine
end

section
/-! Faults (60_exceptions.md): the two faults and what each records (R100, R101), that there is no other (R102) and that decoding
comes first (R103), and that faults are precise (R104) and final (R105). -/

namespace Sys2Proof.Machine

/-! ### The words that fault (R100, R101, R103)

A word is correct, or one genuine fault record is of it: `not_correct_iff`. So the two faults are treated as one below, the fault
of a genuine record. -/

theorem address_eq_some_iff (i : Instr) (a : Addr) : i.address = some a ↔ i = .mrd a ∨ ∃ d, i = .mwr a d := by
  cases i <;> simp [Instr.address]

theorem inWindow_eq_false_iff (a : Addr) : inWindow a = false ↔ a.toNat < 0xC000 ∨ 0xE000 ≤ a.toNat := by
  rw [← Bool.not_eq_true, inWindow_iff]
  omega

/-- The contract is broken only by an address, and one outside the window (R122). -/
theorem inContract_eq_false_iff (i : Instr) : i.inContract = false ↔ ∃ a, i.address = some a ∧ inWindow a = false := by
  cases h : i.address <;> simp [Instr.inContract, h]

/-- The words of which a genuine record can be are those no correct issuer presents. -/
theorem not_correct_iff (cmd : Command) : ¬ Correct cmd ↔ ∃ r : FaultRecord, r.Genuine ∧ r.cmd = cmd := by
  constructor
  · intro hbad
    cases hd : decode cmd with
    | error e => exact ⟨.illegalCommand cmd, fun i hi => by simp [hd] at hi, rfl⟩
    | ok i =>
      have hi : i.inContract = false := Bool.eq_false_iff.mpr fun hc => hbad ⟨i, hd, hc⟩
      obtain ⟨a, haddr, hout⟩ := (inContract_eq_false_iff i).mp hi
      exact ⟨.outOfRange cmd a, ⟨⟨i, hd, haddr⟩, hout⟩, rfl⟩
  · rintro ⟨r, hr, rfl⟩ ⟨i, hd, hc⟩
    cases r with
    | illegalCommand cmd => exact hr i hd
    | outOfRange cmd a =>
      obtain ⟨⟨j, hj, haddr⟩, hout⟩ := hr
      cases hd.symm.trans hj
      exact Bool.false_ne_true (((inContract_eq_false_iff i).mpr ⟨a, haddr, hout⟩).symm.trans hc)

/-! ### A step takes a fault exactly at such a word (R100 to R104) -/

section
variable {s t : State} {r : FaultRecord} {rest : List Command}

/-- A memory command outside the window takes the fault that records its word. -/
theorem exec_of_outside {cmd : Command} {i : Instr} {a : Addr} (s : State) (hd : decode cmd = .ok i)
    (haddr : i.address = some a) (hout : inWindow a = false) : exec i s = .next (s.takeFault (.outOfRange cmd a)) := by
  have hr : s.resolve a = none := resolve_outside s ((inWindow_eq_false_iff a).mp hout)
  rw [← encode_of_decode hd]
  rcases (address_eq_some_iff i a).mp haddr with rfl | ⟨d, rfl⟩
  · exact execMrd_outside s a hr
  · exact execMwr_outside s a d hr

/-- A running block presented with the word of a genuine record takes that fault. -/
theorem step_of_genuine (hf : s.faultRec = none) (hp : s.pending = r.cmd :: rest) (hr : r.Genuine) :
    step s = .next ((s.setPending rest).takeFault r) := by
  cases r with
  | illegalCommand cmd =>
    cases hd : decode cmd with
    | error e => exact step_of_illegal hf hp hd
    | ok i => exact absurd hd (hr i)
  | outOfRange cmd a =>
    obtain ⟨⟨i, hd, haddr⟩, hout⟩ := hr
    exact (step_of_decode hf hp hd).trans (exec_of_outside _ hd haddr hout)

/-- A record that a step of a running block leaves is genuine, and of the word presented. -/
theorem genuine_of_step (hf : s.faultRec = none) (ht : step s = .next t) (hr : t.faultRec = some r) :
    r.Genuine ∧ ∃ rest, s.pending = r.cmd :: rest := by
  cases hp : s.pending with
  | nil =>
    cases ht.symm.trans (step_of_no_pending hf hp)
    cases hf.symm.trans hr
  | cons cmd rest =>
    by_cases hc : Correct cmd
    · obtain ⟨u, hu, huf, -⟩ := step_of_correct_word hf hp hc
      cases ht.symm.trans hu
      cases huf.symm.trans hr
    · obtain ⟨r', hgen, rfl⟩ := (not_correct_iff cmd).mp hc
      cases ht.symm.trans (step_of_genuine hf hp hgen)
      cases hr
      exact ⟨hgen, rest, rfl⟩

/-- No command clears the fault record (R105). -/
theorem exec_keeps_faulted {i : Instr} (h : exec i s = .next t) (hs : s.faultRec ≠ none) : t.faultRec ≠ none := by
  rcases exec_cases i s with ⟨v, he⟩ | ⟨p, v, he⟩ | ⟨a, d, p, -, -, he⟩ | ⟨d8, -, he⟩ | ⟨r, he, -⟩ <;>
    cases h.symm.trans he
  case inr.inr.inr.inr => simp
  all_goals simpa using hs

/-- A faulted block makes no step, so no run from it gets past its fault (R104, R105). -/
theorem run_of_faulted (n : Nat) (h : s.faultRec = some r) : Sys2Proof.core.run (n + 1) s = .fault (.blockStopped r) :=
  run_of_step_fault n s _ (step_of_faulted h)

end

/-! ### The statements -/

/-- Settles O45: the correct words run to their end, the step after them takes the bad word's genuine fault, and a faulted block
makes no step. -/
theorem faultsArePrecise : Obligations.FaultsArePrecise := by
  intro good bad rest s hf hp hgood hbad
  obtain ⟨u, ⟨hrun, huf⟩, hup, -⟩ := run_of_correct_words hf hp hgood
  obtain ⟨r, hgen, rfl⟩ := (not_correct_iff bad).mp hbad
  have hstep : step u = .next ((u.setPending rest).takeFault r) := step_of_genuine huf hup hgen
  refine ⟨u, _, r, ⟨hrun, huf⟩, hup, ?_, takeFault_onlyFaults _ r, rfl, hgen, ?_⟩
  · rw [run_add good.length 1 s u hrun, run_of_step_next 0 u _ hstep, run_zero]
  · rw [run_add good.length 2 s u hrun, run_of_step_next 1 u _ hstep, run_of_faulted 0 rfl]

/-- Settles O40: the record of a word that decoding refuses is genuine. -/
theorem illegalWordsTakeTheFault : Obligations.IllegalWordsTakeTheFault := by
  intro s cmd rest hf hp hill
  exact ⟨_, _, step_of_genuine (r := .illegalCommand cmd) hf hp hill, takeFault_onlyFaults _ _, rfl, rfl, rfl⟩

/-- Settles O41: the record of an address outside the window is genuine, and a record that a step leaves is. -/
theorem outOfRangeAddressesTakeTheFault : Obligations.OutOfRangeAddressesTakeTheFault := by
  refine ⟨fun s cmd rest i a hf hp hd haddr hout => ?_, fun s t cmd a hf ht hr => ?_⟩
  · have hgen : (FaultRecord.outOfRange cmd a).Genuine := ⟨⟨i, hd, haddr⟩, (inWindow_eq_false_iff a).mpr hout⟩
    exact ⟨_, _, step_of_genuine (r := .outOfRange cmd a) hf hp hgen, takeFault_onlyFaults _ _, rfl, rfl, rfl⟩
  · obtain ⟨⟨⟨i, hd, haddr⟩, hout⟩, rest, hp⟩ := genuine_of_step hf ht hr
    refine ⟨rest, hp, ?_, (inWindow_eq_false_iff a).mp hout⟩
    rcases (address_eq_some_iff i a).mp haddr with rfl | ⟨d, rfl⟩
    · exact .inl hd
    · exact .inr ⟨d, hd⟩

/-- Settles O42: the record of a refused word is genuine whatever its fields hold, and a record that a step leaves says truly
whether its word decodes. -/
theorem decodingComesBeforeTheRangeCheck : Obligations.DecodingComesBeforeTheRangeCheck := by
  refine fun s t cmd rest hf hp ht => ⟨fun hill => ?_, fun ⟨i, hd⟩ hr => ?_, fun a hr => ?_⟩
  · cases ht.symm.trans (step_of_genuine (r := .illegalCommand cmd) hf hp hill)
    rfl
  · obtain ⟨hill, -⟩ := genuine_of_step hf ht hr
    exact hill i hd
  · obtain ⟨⟨hcommand, -⟩, -⟩ := genuine_of_step hf ht hr
    exact hcommand

/-- Settles O43: a record that a step leaves is genuine, so its word is not correct. -/
theorem noOtherFaultExists : Obligations.NoOtherFaultExists := by
  refine ⟨fun s hf => ?_, fun s t hf ht => ?_⟩
  · obtain ⟨t, ht, -⟩ := step_next hf
    exact ⟨t, ht⟩
  · cases hr : t.faultRec with
    | none => exact .inl rfl
    | some r =>
      obtain ⟨hgen, rest, hp⟩ := genuine_of_step hf ht hr
      exact .inr ⟨r.cmd, rest, hp, (not_correct_iff r.cmd).mpr ⟨r, hgen, rfl⟩⟩

/-- Settles O44: no update of the state clears a record, and a block that holds one makes no step. -/
theorem faultedBlockNeverResumes : Obligations.FaultedBlockNeverResumes :=
  ⟨fun _ _ _ h hs => exec_keeps_faulted h hs, fun n _ _ hr => run_of_faulted n hr⟩

end Sys2Proof.Machine
end

section
/-! Reset and hazards (70_reset_and_hazards.md): what the read commands answer right after reset (R117), and that a bank selection
takes effect for the very next memory command (R124). -/

namespace Sys2Proof.Machine

/-- Settles O26: after CWR the address resolves to the place in the selected bank, and MRD and MWR act on that place; CWR keeps
the bytes and the memory's canonical form. -/
theorem bankSelectTakesEffectAtOnce : Obligations.BankSelectTakesEffectAtOnce := by
  intro d a s p hlo hhi hp
  obtain ⟨t, ht, hsel⟩ := exec_cwr_onlySelects s d
  have hr : t.resolve a = some p := by rw [resolve_switchable t hlo hhi, hsel.selected, selOf_eq_mod, hp]
  refine ⟨t, ht, hsel.bytes, ?_, fun x => ?_⟩
  · rw [← hsel.bytes p]
    exact exec_mrd_onlyAnswers hr
  · obtain ⟨u, hu, hstore, hread⟩ := exec_mwr_onlyStoresAt x hr
    exact ⟨u, hu, hstore, fun hm => hread (exec_keeps_wf hm ht)⟩

/-- Settles O38: each read answers from a reset value, and an address in the window resolves to some byte. -/
theorem readsRightAfterReset : Obligations.ReadsRightAfterReset := by
  obtain ⟨hreg, hflag, -, hbyte, hsel⟩ := resetLeavesAllZeroAndBankOne
  refine ⟨reset_faultRec, fun p => ⟨_, rfl, ?_⟩, fun f => ⟨_, rfl, ?_⟩, fun a hw => ?_, ?_⟩
  · rw [respond_resp, hreg]
  · rw [respond_resp, hflag, bitWord_eq, if_neg Bool.false_ne_true]
  · rcases access_cases State.reset a with ⟨hout, -⟩ | ⟨-, p, hr, -⟩
    · exact absurd (hout.symm.trans hw) Bool.false_ne_true
    · obtain ⟨t, ht, hans⟩ := exec_mrd_onlyAnswers hr
      exact ⟨t, ht, by rw [hans.resp, hbyte]; rfl⟩
  · obtain ⟨t, ht, hans⟩ := exec_crd_onlyAnswers State.reset
    exact ⟨t, ht, by rw [hans.resp, hsel]; rfl⟩

end Sys2Proof.Machine
end
